-- ==== Sys2Proof/Word.lean ====
section
/-! DEFINITION. The block's one fixed word width.

`00_scope.md` rule R4: `INT_W` and `LEN_W` are fixed at 32, and a BitPattern32
(`10_state.md` rule R11) has 32 bits, so one type serves all three. -/

namespace Sys2Proof

/-- A 32-bit vector: a BitPattern32, an `Int` port, the `len` port, an error item. -/
abbrev Word := BitVec 32

end Sys2Proof
end

