-- ==== Sys2Proof/Config.lean ====
section
/-! DEFINITION. What an instance of the block fixes (`00_scope.md` rule R4) and the one value
the spec leaves free (`43_binarystringcodec.md` rule R72). -/

namespace Sys2Proof

/-- The parameters of an instance, with the constraints of `00_scope.md` rule R4.
The constraints travel with the numbers, so an instance outside them cannot be built. -/
structure Params where
  /-- `WMAX`: largest byte width a value port carries. -/
  wmax : Nat
  /-- `SMAX`: number of characters a string port carries. -/
  smax : Nat
  /-- `CHAR_W`: width in bits of one character. -/
  charW : Nat
  wmax_ge : 4 ≤ wmax
  wmax_le : wmax ≤ 255
  smax_ge : 8 * wmax ≤ smax
  smax_le : smax ≤ 65535
  charW_ge : 6 ≤ charW
  charW_le : charW ≤ 32
  deriving DecidableEq, Repr

/-- `VW`, the width of the value ports `a` and `r` (rule R4: `8 * WMAX`). -/
def Params.vw (P : Params) : Nat := 8 * P.wmax

/-- The default instance of rule R4: `WMAX = 8`, `SMAX = 64`, `CHAR_W = 8`. -/
def Params.standard : Params where
  wmax := 8
  smax := 64
  charW := 8
  wmax_ge := by decide
  wmax_le := by decide
  smax_ge := by decide
  smax_le := by decide
  charW_ge := by decide
  charW_le := by decide

namespace Config

/-- `PARSE_LENFAIL_VALUE`, the draw `draw_32()` of rules R30 and R72: the `n`th evaluation of the
block takes the `n`th value. It has no body: nothing in Lean can say which value it is
(`93_implementation_defined.md` U2; `92_eei_decisions.md` D16; notes/assumptions/3.md). -/
opaque parseLenFailValue : Nat → BitVec 32

end Config

end Sys2Proof
end

