-- ==== Sys2Proof/Syntax.lean ====
section
/-! DEFINITION. The operations of the block (one constructor per row of the operation table), the
request format, the ports each operation reads and writes, and the status codes.

The block fetches nothing (`10_state.md` rule R15): an instruction is the value of the `op` port,
and its operands are the other request ports (`30_encoding.md` rules R31, R35, R36). -/

namespace Sys2Proof

/-- The rows of the operation table: the nine operations of `30_encoding.md` rule R35 and the seven
reserved codes of rule R38. A row has no operand fields: operands are request ports. -/
inductive Instr where
  | reinterp
  | reinterpI32
  | reinterpF32
  | split
  | assemble
  | bitinc
  | bitdec
  | parsebin
  | renderbin
  | reserved9
  | reserved10
  | reserved11
  | reserved12
  | reserved13
  | reserved14
  | reserved15
  deriving DecidableEq, Repr

/-- The request ports of `30_encoding.md` rule R31, by name. -/
inductive ReqPort where
  | op | a | a_w | t_w | f_sign | f_exp | f_man | len | s_len | s
  deriving DecidableEq, Repr

/-- The response ports of `30_encoding.md` rule R32, by name. -/
inductive RspPort where
  | status | r | r_w | r_sign | r_exp | r_man | o_len | o | e_a | e_b
  deriving DecidableEq, Repr

/-- The request bundle (`30_encoding.md` rule R31), the one request format (rule R44). -/
structure Request (P : Params) where
  op : BitVec 4
  a : BitVec P.vw
  a_w : BitVec 8
  t_w : BitVec 8
  f_sign : BitVec 32
  f_exp : BitVec 32
  f_man : BitVec 32
  len : BitVec 32
  s_len : BitVec 16
  s : Vector (BitVec P.charW) P.smax
  deriving DecidableEq, Repr

/-- The request with every port 0. -/
def Request.zero (P : Params) : Request P where
  op := 0
  a := 0
  a_w := 0
  t_w := 0
  f_sign := 0
  f_exp := 0
  f_man := 0
  len := 0
  s_len := 0
  s := Vector.replicate P.smax 0

/-- The request ports an operation reads (`30_encoding.md` rule R36; rule R38 for the reserved
codes: no port but `op`). -/
def Instr.reads : Instr → List ReqPort
  | .reinterp => [.op, .a, .a_w, .t_w]
  | .reinterpI32 => [.op, .a, .a_w]
  | .reinterpF32 => [.op, .a, .a_w]
  | .split => [.op, .a, .a_w]
  | .assemble => [.op, .f_sign, .f_exp, .f_man]
  | .bitinc => [.op, .a, .a_w]
  | .bitdec => [.op, .a, .a_w]
  | .parsebin => [.op, .s, .s_len, .len]
  | .renderbin => [.op, .a, .a_w, .len]
  | .reserved9 => [.op]
  | .reserved10 => [.op]
  | .reserved11 => [.op]
  | .reserved12 => [.op]
  | .reserved13 => [.op]
  | .reserved14 => [.op]
  | .reserved15 => [.op]

/-- The response ports an operation writes when it is not ended by an `ERR_` status
(`30_encoding.md` rule R36; `PARSEBIN` writes the same two under `FAIL_LEN` and `FAIL_DIGIT`).
`status` is always written. -/
def Instr.writes : Instr → List RspPort
  | .reinterp => [.status, .r, .r_w]
  | .reinterpI32 => [.status, .r, .r_w]
  | .reinterpF32 => [.status, .r, .r_w]
  | .split => [.status, .r_sign, .r_exp, .r_man]
  | .assemble => [.status, .r, .r_w]
  | .bitinc => [.status, .r, .r_w]
  | .bitdec => [.status, .r, .r_w]
  | .parsebin => [.status, .r, .r_w]
  | .renderbin => [.status, .o, .o_len]
  | .reserved9 => [.status]
  | .reserved10 => [.status]
  | .reserved11 => [.status]
  | .reserved12 => [.status]
  | .reserved13 => [.status]
  | .reserved14 => [.status]
  | .reserved15 => [.status]

/-- The ways an operation ends (`30_encoding.md` rule R37, `60_exceptions.md` rule R80). -/
inductive Status where
  | ok | failLen | failDigit | errWidth | errRange | errOp | errReq
  deriving DecidableEq, Repr

/-- The code of a status on the 3-bit `status` port (`30_encoding.md` rule R37); 7 is no code. -/
def Status.code : Status → BitVec 3
  | .ok => 0
  | .failLen => 1
  | .failDigit => 2
  | .errWidth => 3
  | .errRange => 4
  | .errOp => 5
  | .errReq => 6

/-- The four statuses that are raised (`60_exceptions.md` rule R88); `FAIL_LEN` and `FAIL_DIGIT`
are ordinary results (rule R84). -/
def Status.isErr : Status → Bool
  | .ok | .failLen | .failDigit => false
  | .errWidth | .errRange | .errOp | .errReq => true

/-- One operation with the operands it reads: the call notation of `30_encoding.md` rule R41. -/
inductive Call (P : Params) where
  | reinterp (a : BitVec P.vw) (a_w t_w : BitVec 8)
  | reinterpI32 (a : BitVec P.vw) (a_w : BitVec 8)
  | reinterpF32 (a : BitVec P.vw) (a_w : BitVec 8)
  | split (a : BitVec P.vw) (a_w : BitVec 8)
  | assemble (f_sign f_exp f_man : BitVec 32)
  | bitinc (a : BitVec P.vw) (a_w : BitVec 8)
  | bitdec (a : BitVec P.vw) (a_w : BitVec 8)
  | parsebin (s : Vector (BitVec P.charW) P.smax) (s_len : BitVec 16) (len : BitVec 32)
  | renderbin (a : BitVec P.vw) (a_w : BitVec 8) (len : BitVec 32)
  | reserved9
  | reserved10
  | reserved11
  | reserved12
  | reserved13
  | reserved14
  | reserved15
  deriving DecidableEq, Repr

end Sys2Proof
end

