-- ==== Sys2Proof/WellFormed.lean ====
section
/-! DEFINITION. Well-formedness of a request (`60_exceptions.md` rule R86), as a decidable
predicate. The check the block itself makes stands in Machine/Ops.lean; Laws/Ops.lean proves
that the two agree. -/

namespace Sys2Proof

/-- Rule R86 (a): a byte width the value ports can carry. -/
abbrev TagFits (P : Params) (a_w : BitVec 8) : Prop := 1 ≤ a_w.toNat ∧ a_w.toNat ≤ P.wmax

/-- Rule R86 (b): a text length the string port can carry. -/
abbrev TextFits (P : Params) (s_len : BitVec 16) : Prop := s_len.toNat ≤ P.smax

/-- Rule R86: a request for operation `i` is well formed when its width tag fits, if `i` reads one,
and its text length fits, if `i` is `PARSEBIN`. `t_w` is no part of the test. -/
abbrev WellFormed {P : Params} (i : Instr) (req : Request P) : Prop :=
  (ReqPort.a_w ∈ i.reads → TagFits P req.a_w) ∧ (i = .parsebin → TextFits P req.s_len)

end Sys2Proof
end

