-- ==== Sys2Proof/Decode.lean ====
section
/-! DEFINITION. Which operation a code selects (`30_encoding.md` rule R35), the encoder, and the
request encoding of one call (rule R41). -/

namespace Sys2Proof

abbrev Byte := BitVec 8

/-- Why a list of bytes is no operation code. -/
inductive DecodeError where
  /-- No byte is left. -/
  | noByte
  /-- The byte has a bit set above bit 3; the `op` port has 4 bits (rule R31). -/
  | bitsAboveOp (byte : Byte)
  deriving DecidableEq, Repr

/-- The operation a value of the `op` port selects: the `binary` column of rule R35, bit 3 first,
and the reserved codes 9 to 15 of rule R38. -/
def decodeOp (op : BitVec 4) : Instr :=
  match op.getLsbD 3, op.getLsbD 2, op.getLsbD 1, op.getLsbD 0 with
  | false, false, false, false => .reinterp
  | false, false, false, true => .reinterpI32
  | false, false, true, false => .reinterpF32
  | false, false, true, true => .split
  | false, true, false, false => .assemble
  | false, true, false, true => .bitinc
  | false, true, true, false => .bitdec
  | false, true, true, true => .parsebin
  | true, false, false, false => .renderbin
  | true, false, false, true => .reserved9
  | true, false, true, false => .reserved10
  | true, false, true, true => .reserved11
  | true, true, false, false => .reserved12
  | true, true, false, true => .reserved13
  | true, true, true, false => .reserved14
  | true, true, true, true => .reserved15

/-- Read one operation code from a list of bytes, the 4-bit code in the low bits of a byte whose
other bits are 0 (DESIGN CHOICE, notes/assumptions/6.md: the spec puts the code on a 4-bit port and
names no byte form). -/
def decode : List Byte → Except DecodeError (Instr × List Byte)
  | [] => .error .noByte
  | b :: rest =>
    if 16 ≤ b.toNat then .error (.bitsAboveOp b) else .ok (decodeOp (b.setWidth 4), rest)

/-- The code of an operation (rule R35, the `op` column; rule R38). -/
def encodeOp : Instr → BitVec 4
  | .reinterp => 0
  | .reinterpI32 => 1
  | .reinterpF32 => 2
  | .split => 3
  | .assemble => 4
  | .bitinc => 5
  | .bitdec => 6
  | .parsebin => 7
  | .renderbin => 8
  | .reserved9 => 9
  | .reserved10 => 10
  | .reserved11 => 11
  | .reserved12 => 12
  | .reserved13 => 13
  | .reserved14 => 14
  | .reserved15 => 15

/-- The byte of an operation. -/
def encode (i : Instr) : List Byte := [(encodeOp i).setWidth 8]

/-- What the decoder reads from an instruction whose bits are `w`, numbered as the operation table
numbers them; the whole code stands in the first byte, so a bit above bit 7 belongs to no
instruction. `nbits` says nothing more: every row has the same four bits. -/
def decodeTableWord (_nbits w : Nat) : Option Instr :=
  if 256 ≤ w then none
  else
    match decode [BitVec.ofNat 8 w] with
    | .ok (i, _) => some i
    | .error _ => none

/-- The request encoding of a call (rule R41): `op` and the ports the operation reads, every other
port 0. -/
def encodeCall {P : Params} : Call P → Request P
  | .reinterp a a_w t_w => { Request.zero P with op := 0, a := a, a_w := a_w, t_w := t_w }
  | .reinterpI32 a a_w => { Request.zero P with op := 1, a := a, a_w := a_w }
  | .reinterpF32 a a_w => { Request.zero P with op := 2, a := a, a_w := a_w }
  | .split a a_w => { Request.zero P with op := 3, a := a, a_w := a_w }
  | .assemble x y z => { Request.zero P with op := 4, f_sign := x, f_exp := y, f_man := z }
  | .bitinc a a_w => { Request.zero P with op := 5, a := a, a_w := a_w }
  | .bitdec a a_w => { Request.zero P with op := 6, a := a, a_w := a_w }
  | .parsebin s n len => { Request.zero P with op := 7, s := s, s_len := n, len := len }
  | .renderbin a a_w len => { Request.zero P with op := 8, a := a, a_w := a_w, len := len }
  | .reserved9 => { Request.zero P with op := 9 }
  | .reserved10 => { Request.zero P with op := 10 }
  | .reserved11 => { Request.zero P with op := 11 }
  | .reserved12 => { Request.zero P with op := 12 }
  | .reserved13 => { Request.zero P with op := 13 }
  | .reserved14 => { Request.zero P with op := 14 }
  | .reserved15 => { Request.zero P with op := 15 }

/-- The call a request makes: the operation its `op` selects with the ports that operation reads
(rules R35, R36); every other port is dropped. -/
def decodeCall {P : Params} (q : Request P) : Call P :=
  match decodeOp q.op with
  | .reinterp => .reinterp q.a q.a_w q.t_w
  | .reinterpI32 => .reinterpI32 q.a q.a_w
  | .reinterpF32 => .reinterpF32 q.a q.a_w
  | .split => .split q.a q.a_w
  | .assemble => .assemble q.f_sign q.f_exp q.f_man
  | .bitinc => .bitinc q.a q.a_w
  | .bitdec => .bitdec q.a q.a_w
  | .parsebin => .parsebin q.s q.s_len q.len
  | .renderbin => .renderbin q.a q.a_w q.len
  | .reserved9 => .reserved9
  | .reserved10 => .reserved10
  | .reserved11 => .reserved11
  | .reserved12 => .reserved12
  | .reserved13 => .reserved13
  | .reserved14 => .reserved14
  | .reserved15 => .reserved15

end Sys2Proof
end

