-- ==== Sys2Proof/Machine/State.lean ====
section
/-! DEFINITION. What the machine holds: the parameters of the instance, the request on the input
ports, the response on the output ports, and the counter of draws.

The block itself has no state (`10_state.md` rules R10, R15, R16, R17, R18). A step function needs a
place for what the host drives and reads, so State holds the two port bundles
(notes/assumptions/1.md), the constants of the instance (notes/assumptions/2.md) and the model's own
counter (notes/assumptions/3.md). -/

namespace Sys2Proof.Machine

/-- The response bundle (`30_encoding.md` rule R32). -/
structure Response (P : Params) where
  status : BitVec 3
  r : BitVec P.vw
  r_w : BitVec 8
  r_sign : BitVec 32
  r_exp : BitVec 32
  r_man : BitVec 32
  o_len : BitVec 16
  o : Vector (BitVec P.charW) P.smax
  e_a : BitVec 32
  e_b : BitVec 32
  deriving DecidableEq, Repr

/-- The response with every port 0 (`30_encoding.md` rule R34 (c)). -/
def Response.zero (P : Params) : Response P where
  status := 0
  r := 0
  r_w := 0
  r_sign := 0
  r_exp := 0
  r_man := 0
  o_len := 0
  o := Vector.replicate P.smax 0
  e_a := 0
  e_b := 0

/-- The machine. `params` are constants of the instance (`10_state.md` rule R16), `req` is what the
host drives (rule R31), `rsp` is what the block answers to it (rule R32; rule R18: reset, every step and
every change of a request port leave it a response to `req`), and `draws`
counts evaluations, one draw each: it is the model's own field (notes/assumptions/3.md). -/
structure State where
  params : Params
  req : Request params
  rsp : Response params
  draws : Nat
  deriving DecidableEq, Repr

/-- Why the machine stops with a fault: no reason exists. `exec` is total and nothing hangs the block
(`70_reset_and_hazards.md` rule R99), and every error is a status of an ordinary response
(`60_exceptions.md` rule R80). -/
inductive Fault where
  deriving DecidableEq, Repr

/-- Why an instruction has no meaning. -/
inductive Refusal where
  /-- Raised by an arm of `exec` whose instruction has no meaning yet; safe. No arm of this model
  raises it. -/
  | notModelled (mnemonic : String)
  deriving DecidableEq, Repr

/-- The machine right after reset, on the default instance. The block has no reset and no state
(`10_state.md` rule R18, `70_reset_and_hazards.md` rule R95); the request ports are taken as 0
(DESIGN CHOICE, notes/assumptions/4.md), and the response ports hold the response to that request,
as rule R95 asks: `op = 0` with `a_w = 0` is malformed, so `ERR_REQ` with `e_a = 0`, `e_b = WMAX`
(`60_exceptions.md` rule R86). -/
def State.reset : State where
  params := Params.standard
  req := Request.zero Params.standard
  rsp := { Response.zero Params.standard with status := 6, e_a := 0, e_b := 8 }
  draws := 0

end Sys2Proof.Machine
end

