-- ==== Sys2Proof/Machine/Operands.lean ====
section
/-! DEFINITION. How the operations read their operands (`30_encoding.md` rules R33, R34, R39;
`20_memory.md` rule R21; `10_state.md` rule R12), and how a string lies on wires. -/

namespace Sys2Proof.Machine

variable {P : Params}

/-! ### Fixed-size values -/

/-- The value of byte width `w` on a value port, zero-extended to the port:
`zext_VW(v[8*w-1:0])`; the port bits above it are not read (rules R21, R34 (a)). -/
def portValue (w : Nat) (v : BitVec P.vw) : BitVec P.vw := (v.setWidth (8 * w)).setWidth P.vw

/-- The BitPattern32 on a value port, `v[31:0]` (rule R39 (e)). -/
def portPattern (v : BitVec P.vw) : Word := v.setWidth 32

/-- Storage byte `k` of a value on a port, `v[8*k+7:8*k]` (rule R21). -/
def storageByte (v : BitVec P.vw) (k : Nat) : Byte := v.extractLsb' (8 * k) 8

/-! ### The three fields of a BitPattern32 (rule R12) -/

/-- `p[31]`. -/
def signField (p : Word) : BitVec 1 := p.extractLsb' 31 1

/-- `p[30:23]`, the raw biased field. -/
def exponentField (p : Word) : BitVec 8 := p.extractLsb' 23 8

/-- `p[22:0]`. -/
def mantissaField (p : Word) : BitVec 23 := p.extractLsb' 0 23

/-! ### Integers and text -/

/-- `sint(len)`, `lengthLimit` of PARSEBIN and `length` of RENDERBIN (rule R39 (b)). -/
abbrev requestLimit (q : Request P) : Int := q.len.toInt

/-- `8 * uint(a_w)`, the width in bits of the value on port `a` (rules R6 (d), R74). -/
abbrev valueBits (q : Request P) : Nat := 8 * q.a_w.toNat

/-- Character `i` of a string port (rule R33); a position the port does not have reads 0, and no
well-formed request reads one. -/
def portChar (v : Vector (BitVec P.charW) P.smax) (i : Nat) : BitVec P.charW := v[i]?.getD 0

/-- The text on the request string port: `s_chr(0)` to `s_chr(s_len - 1)`, leftmost first
(rule R33). -/
def requestText (q : Request P) : List (BitVec P.charW) :=
  (List.range q.s_len.toNat).map (portChar q.s)

/-! ### Strings on wires (rule R33) -/

/-- Characters laid out `w` bits apart on `m` wires, the first in the lowest bits. -/
def packChars {w : Nat} (m : Nat) : List (BitVec w) → BitVec m
  | [] => 0
  | c :: cs => c.setWidth m ||| packChars m cs <<< w

/-- The `SMAX * CHAR_W` wires of a string port. -/
def stringWires {w n : Nat} (v : Vector (BitVec w) n) : BitVec (n * w) :=
  packChars (n * w) v.toList

/-- A string of `n` characters, given character by character. -/
def stringOf {w : Nat} (n : Nat) (f : Nat → BitVec w) : Vector (BitVec w) n :=
  ⟨((List.range n).map f).toArray, by simp⟩

/-- The string port that a bundle of wires carries: character `i` is
`s[CHAR_W*(i+1)-1 : CHAR_W*i]`. -/
def stringFromWires {w n : Nat} (b : BitVec (n * w)) : Vector (BitVec w) n :=
  stringOf n fun i => b.extractLsb' (w * i) w

end Sys2Proof.Machine
end

