-- ==== Sys2Proof/Machine/Flags.lean ====
section
/-! DEFINITION. The conditions the operations test. The block has no flag and no condition code
(`10_state.md` rule R16); what an operation tests is a bit pattern's class (`42_ulpstepper.md`
rule R60), a character (`30_encoding.md` rule R39 (f)), or an integer comparison (`00_scope.md`
rule R6 (d)). -/

namespace Sys2Proof.Machine

variable {P : Params}

/-! ### Classes of a BitPattern32 (rule R60) -/

/-- The exponent field is all ones: an infinity or a NaN. -/
def isSpecial (p : Word) : Bool := exponentField p == 255#8

def isPosInf (p : Word) : Bool := p == 0x7F800000#32

def isNegInf (p : Word) : Bool := p == 0xFF800000#32

/-- All-ones exponent and nonzero mantissa; quiet and signalling are one class. -/
def isNaN (p : Word) : Bool := exponentField p == 255#8 && mantissaField p != 0#23

def isNegZero (p : Word) : Bool := p == 0x80000000#32

def isPosZero (p : Word) : Bool := p == 0x00000000#32

/-- "If that integer is negative": the sign bit is set (rule R6 (a)). -/
def isNegative (p : Word) : Bool := signField p == 1#1

/-! ### Characters -/

/-- A binary digit: code point 48 or 49, compared as an integer (rules R39 (f), R40). -/
def isDigit {w : Nat} (c : BitVec w) : Bool := c.toNat == 48 || c.toNat == 49

/-! ### The comparisons of a request's ports (rule R6 (d)) -/

/-- `1 <= uint(a_w) <= WMAX` (`60_exceptions.md` rule R86 (a)). -/
def tagFits (q : Request P) : Bool := 1 ≤ q.a_w.toNat && q.a_w.toNat ≤ P.wmax

/-- `uint(s_len) <= SMAX` (rule R86 (b)). -/
def textFits (q : Request P) : Bool := q.s_len.toNat ≤ P.smax

/-- `uint(a_w) != uint(t_w)` (`40_bitreinterpreter.md` rule R50). -/
def tagsDiffer (q : Request P) : Bool := q.a_w.toNat != q.t_w.toNat

/-- `uint(a_w) != 4` (rules R51, R52, R55, R64). -/
def tagNotFour (q : Request P) : Bool := q.a_w.toNat != 4

/-- `uint(s_len) > sint(len)` (`43_binarystringcodec.md` rule R71). -/
def textTooLong (q : Request P) : Bool := requestLimit q < (q.s_len.toNat : Int)

/-- `sint(len) > 8 * uint(a_w)` (rule R74). -/
def lengthTooLarge (q : Request P) : Bool := (valueBits q : Int) < requestLimit q

end Sys2Proof.Machine
end

