-- ==== Sys2Proof/Machine/Ops.lean ====
section
/-! DEFINITION. The operations every instruction shares: raising an error, the checks of a request,
answering with a value, and one evaluation of the block. -/

namespace Sys2Proof.Machine

variable {P : Params}

/-- `raise <Error>(x, y)` (`60_exceptions.md` rule R88), the block's counterpart of taking an
exception: the status and the two numbers, every other response port 0. Nothing is saved and
control goes nowhere. There is no return from it (rule R89). -/
def raise (P : Params) (e : Status) (x y : Word) : Response P :=
  { Response.zero P with status := e.code, e_a := x, e_b := y }

/-- The response that carries the fixed-size value `v` of byte width `w` (`30_encoding.md` rules
R34 (c), R43). -/
def answerValue (w : BitVec 8) (v : BitVec P.vw) : Response P :=
  { Response.zero P with status := Status.ok.code, r := v, r_w := w }

/-- The response that carries the 32-bit pattern `p`, zero-extended to the port, with `r_w = 4`. -/
def answerPattern (P : Params) (p : Word) : Response P := answerValue 4 (p.setWidth P.vw)

/-- Rule R86 (a): go on with `k` when the width tag fits, else `ERR_REQ` with the tag and `WMAX`. -/
def withTag (q : Request P) (k : Response P) : Response P :=
  if tagFits q then k else raise P .errReq (q.a_w.setWidth 32) (BitVec.ofNat 32 P.wmax)

/-- Rule R86 (b): go on with `k` when the text length fits, else `ERR_REQ` with the length and
`SMAX`. -/
def withText (q : Request P) (k : Response P) : Response P :=
  if textFits q then k else raise P .errReq (q.s_len.setWidth 32) (BitVec.ofNat 32 P.smax)

/-- The width check of the 4-byte operations (rules R51, R52, R55, R64, R82): go on with `k` when
the tag is 4, else `ERR_WIDTH` with 4 and the tag. The check is always made (rule R83). -/
def withFour (q : Request P) (k : Response P) : Response P :=
  if tagNotFour q then raise P .errWidth 4 (q.a_w.setWidth 32) else k

/-- A reserved operation code (`30_encoding.md` rule R38): `ERR_OP` with the code and 0; no port but
`op` is read. -/
def reservedOp (q : Request P) : Response P := raise P .errOp (q.op.setWidth 32) 0

/-- The draw of the present evaluation (rule R30's `d`). -/
def State.draw (s : State) : Word := Config.parseLenFailValue s.draws

/-- One evaluation of the block: the response ports take `rsp`, and this evaluation's draw is spent.
The request ports and the parameters stay (`10_state.md` rules R14, R16). -/
abbrev State.answer (s : State) (rsp : Response s.params) : State :=
  { s with rsp := rsp, draws := s.draws + 1 }

/-- The outcome of an operation whose response is `rsp`: always a next state
(`70_reset_and_hazards.md` rule R99). -/
def respond (s : State) (rsp : Response s.params) : Host.Outcome State Fault Refusal :=
  .next (s.answer rsp)

end Sys2Proof.Machine
end

