-- ==== Sys2Proof/Machine/BinaryStringCodec.lean ====
section
/-! DEFINITION. The meanings of PARSEBIN and RENDERBIN (`43_binarystringcodec.md`). -/

namespace Sys2Proof.Machine

variable {P : Params}

/-! ### PARSEBIN -/

/-- What the scan of a text ends with: the accumulator, or the first character that is no digit. -/
inductive Scan (w : Nat) where
  | value (acc : Word)
  | offender (c : BitVec w)
  deriving DecidableEq, Repr

/-- One digit into the accumulator: `trunc_32(acc << 1) | zext_32(c[0])` (rules R70, R77). -/
def pushDigit {w : Nat} (acc : Word) (c : BitVec w) : Word :=
  acc <<< 1 ||| (BitVec.ofBool (c.getLsbD 0)).setWidth 32

/-- The scan from left to right; it stops at the first character that is no digit (rules R70, R73). -/
def scan {w : Nat} : Word → List (BitVec w) → Scan w
  | acc, [] => .value acc
  | acc, c :: cs => if isDigit c then scan (pushDigit acc c) cs else .offender c

/-- The result of a finished scan: `OK` with the accumulator (rule R70 (3)), or `FAIL_DIGIT` with the
offender's code point (rule R73). -/
def scanResponse (P : Params) : Scan P.charW → Response P
  | .value acc => answerPattern P acc
  | .offender c =>
    { answerPattern P (c.setWidth 32) with status := Status.failDigit.code }

/-- Rule R70, on a well-formed request, with the draw `d` of rule R72: the length check, then the
scan. -/
def parsebinRule (q : Request P) (d : Word) : Response P :=
  if textTooLong q then { answerPattern P d with status := Status.failLen.code }
  else scanResponse P (scan 0#32 (requestText q))

/-! ### RENDERBIN -/

/-- The automatic length (rule R75): from the full width down while the highest bit shown is 0, never
below 1. -/
def autoLength {n : Nat} (v : BitVec n) : Nat → Nat
  | 0 => 1
  | 1 => 1
  | k + 2 => if v.getLsbD (k + 1) then k + 2 else autoLength v (k + 1)

/-- The output length `K` (rule R74 (2)). -/
def renderLength (q : Request P) : Nat :=
  if requestLimit q ≤ 0 then autoLength q.a (valueBits q) else (requestLimit q).toNat

/-- `0x30 + bit`, the character of one bit (rule R74 (3)). -/
def bitChar (w : Nat) (b : Bool) : BitVec w := 0x30 + (BitVec.ofBool b).setWidth w

/-- The `K` characters of bits `K-1` down to 0, most significant first, in the first slots of the
string port; the other slots 0 (rules R74 (3), R33). -/
def renderString (P : Params) (v : BitVec P.vw) (k : Nat) : Vector (BitVec P.charW) P.smax :=
  stringOf P.smax fun j => if j < k then bitChar P.charW (v.getLsbD (k - 1 - j)) else 0

/-- The response that carries the string of the low `k` bits of `v`. -/
def answerString (P : Params) (v : BitVec P.vw) (k : Nat) : Response P :=
  { Response.zero P with
    status := Status.ok.code
    o_len := BitVec.ofNat 16 k
    o := renderString P v k }

/-- Rule R74, on a well-formed request: `ERR_RANGE` with the requested length and the bit width, or
the string. -/
def renderbinRule (q : Request P) : Response P :=
  if lengthTooLarge q then raise P .errRange q.len (BitVec.ofNat 32 (valueBits q))
  else answerString P q.a (renderLength q)

/-- `PARSEBIN` (rule R70). -/
def execParsebin (s : State) : Host.Outcome State Fault Refusal :=
  respond s (withText s.req (parsebinRule s.req s.draw))

/-- `RENDERBIN` (rule R74). -/
def execRenderbin (s : State) : Host.Outcome State Fault Refusal :=
  respond s (withTag s.req (renderbinRule s.req))

end Sys2Proof.Machine
end

