-- ==== Sys2Proof/Machine/BitReinterpreter.lean ====
section
/-! DEFINITION. The meanings of REINTERP, REINTERP_I32 and REINTERP_F32 (`40_bitreinterpreter.md`). -/

namespace Sys2Proof.Machine

variable {P : Params}

/-- Rule R50, on a well-formed request: the width check, expected width `t_w` first, then the copy. -/
def reinterpRule (q : Request P) : Response P :=
  if tagsDiffer q then raise P .errWidth (q.t_w.setWidth 32) (q.a_w.setWidth 32)
  else answerValue q.t_w (portValue q.a_w.toNat q.a)

/-- Rule R51, on a well-formed request. -/
def reinterpI32Rule (q : Request P) : Response P :=
  withFour q (answerPattern P (portPattern q.a))

/-- Rule R52, on a well-formed request. -/
def reinterpF32Rule (q : Request P) : Response P :=
  withFour q (answerPattern P (portPattern q.a))

/-- `REINTERP` (rule R50). -/
def execReinterp (s : State) : Host.Outcome State Fault Refusal :=
  respond s (withTag s.req (reinterpRule s.req))

/-- `REINTERP_I32` (rule R51). -/
def execReinterpI32 (s : State) : Host.Outcome State Fault Refusal :=
  respond s (withTag s.req (reinterpI32Rule s.req))

/-- `REINTERP_F32` (rule R52). -/
def execReinterpF32 (s : State) : Host.Outcome State Fault Refusal :=
  respond s (withTag s.req (reinterpF32Rule s.req))

end Sys2Proof.Machine
end

