-- ==== Sys2Proof/Machine/FieldCodec.lean ====
section
/-! DEFINITION. The meanings of SPLIT and ASSEMBLE (`41_fieldcodec.md`). -/

namespace Sys2Proof.Machine

variable {P : Params}

/-- The pattern with the given fields, `{sign, exponent, mantissa}` (`10_state.md` rule R12). -/
def joinFields (sign : BitVec 1) (exponent : BitVec 8) (mantissa : BitVec 23) : Word :=
  ((sign ++ exponent) ++ mantissa).setWidth 32

/-- The fields of a pattern on the three `Int` ports, zero-extended (rule R55). -/
def answerFields (P : Params) (p : Word) : Response P :=
  { Response.zero P with
    status := Status.ok.code
    r_sign := (signField p).setWidth 32
    r_exp := (exponentField p).setWidth 32
    r_man := (mantissaField p).setWidth 32 }

/-- Rule R55, on a well-formed request. -/
def splitRule (q : Request P) : Response P := withFour q (answerFields P (portPattern q.a))

/-- Rule R56: the low 1, 8 and 23 bits of the three `Int`s; higher bits are dropped, nothing is
rejected. -/
def assembleRule (q : Request P) : Response P :=
  answerPattern P
    (joinFields (q.f_sign.setWidth 1) (q.f_exp.setWidth 8) (q.f_man.setWidth 23))

/-- `SPLIT` (rule R55). -/
def execSplit (s : State) : Host.Outcome State Fault Refusal :=
  respond s (withTag s.req (splitRule s.req))

/-- `ASSEMBLE` (rule R56): it reads no width tag, so every request is well formed for it. -/
def execAssemble (s : State) : Host.Outcome State Fault Refusal :=
  respond s (assembleRule s.req)

end Sys2Proof.Machine
end

