-- ==== Sys2Proof/Machine/Reserved.lean ====
section
/-! DEFINITION. The meanings of the seven reserved operation codes (`30_encoding.md` rule R38): each
answers `ERR_OP` with its code. -/

namespace Sys2Proof.Machine

/-- `op = 9` (rule R38). -/
def execReserved9 (s : State) : Host.Outcome State Fault Refusal := respond s (reservedOp s.req)

/-- `op = 10` (rule R38). -/
def execReserved10 (s : State) : Host.Outcome State Fault Refusal := respond s (reservedOp s.req)

/-- `op = 11` (rule R38). -/
def execReserved11 (s : State) : Host.Outcome State Fault Refusal := respond s (reservedOp s.req)

/-- `op = 12` (rule R38). -/
def execReserved12 (s : State) : Host.Outcome State Fault Refusal := respond s (reservedOp s.req)

/-- `op = 13` (rule R38). -/
def execReserved13 (s : State) : Host.Outcome State Fault Refusal := respond s (reservedOp s.req)

/-- `op = 14` (rule R38). -/
def execReserved14 (s : State) : Host.Outcome State Fault Refusal := respond s (reservedOp s.req)

/-- `op = 15` (rule R38). -/
def execReserved15 (s : State) : Host.Outcome State Fault Refusal := respond s (reservedOp s.req)

end Sys2Proof.Machine
end

