-- ==== Sys2Proof/Machine/UlpStepper.lean ====
section
/-! DEFINITION. The meanings of BITINC and BITDEC (`42_ulpstepper.md`). -/

namespace Sys2Proof.Machine

variable {P : Params}

/-- The step toward +Infinity (rule R61, its three cases in order). -/
def stepUp (p : Word) : Word :=
  if isSpecial p then
    if isNegInf p then 0xFF7FFFFF#32 else p
  else if isNegZero p then 0x00000001#32
  else if isNegative p then p - 1#32
  else p + 1#32

/-- The step toward -Infinity (rule R62, its three cases in order). -/
def stepDown (p : Word) : Word :=
  if isSpecial p then
    if isPosInf p then 0x7F7FFFFF#32 else p
  else if isPosZero p then 0x80000001#32
  else if isNegative p then p + 1#32
  else p - 1#32

/-- Rules R64 and R61, on a well-formed request. -/
def bitincRule (q : Request P) : Response P :=
  withFour q (answerPattern P (stepUp (portPattern q.a)))

/-- Rules R64 and R62, on a well-formed request. -/
def bitdecRule (q : Request P) : Response P :=
  withFour q (answerPattern P (stepDown (portPattern q.a)))

/-- `BITINC` (rule R61). -/
def execBitinc (s : State) : Host.Outcome State Fault Refusal :=
  respond s (withTag s.req (bitincRule s.req))

/-- `BITDEC` (rule R62). -/
def execBitdec (s : State) : Host.Outcome State Fault Refusal :=
  respond s (withTag s.req (bitdecRule s.req))

end Sys2Proof.Machine
end

