-- ==== Sys2Proof/Machine/Dispatch.lean ====
section
/-! DEFINITION. One arm per row of the operation table: the operation's meaning. -/

namespace Sys2Proof.Machine

def exec (i : Instr) (s : State) : Host.Outcome State Fault Refusal :=
  match i with
  | .reinterp => Sys2Proof.Machine.execReinterp s
  | .reinterpI32 => Sys2Proof.Machine.execReinterpI32 s
  | .reinterpF32 => Sys2Proof.Machine.execReinterpF32 s
  | .split => Sys2Proof.Machine.execSplit s
  | .assemble => Sys2Proof.Machine.execAssemble s
  | .bitinc => Sys2Proof.Machine.execBitinc s
  | .bitdec => Sys2Proof.Machine.execBitdec s
  | .parsebin => Sys2Proof.Machine.execParsebin s
  | .renderbin => Sys2Proof.Machine.execRenderbin s
  | .reserved9 => Sys2Proof.Machine.execReserved9 s
  | .reserved10 => Sys2Proof.Machine.execReserved10 s
  | .reserved11 => Sys2Proof.Machine.execReserved11 s
  | .reserved12 => Sys2Proof.Machine.execReserved12 s
  | .reserved13 => Sys2Proof.Machine.execReserved13 s
  | .reserved14 => Sys2Proof.Machine.execReserved14 s
  | .reserved15 => Sys2Proof.Machine.execReserved15 s

end Sys2Proof.Machine
end

