-- ==== Sys2Proof/Machine/Block.lean ====
section
/-! DEFINITION. The block as one function of a request and a draw, written as the outline of
`30_encoding.md` rule R30 has it, with the priority of `60_exceptions.md` rule R87. It is what the
response ports follow when the host drives the request ports (Machine/HostSide.lean). The step
evaluates the operation by its own meaning, and the statements compare the two. -/

namespace Sys2Proof.Machine

variable {P : Params}

/-- `exec(req, d)` of rule R30: a reserved code first (rule R38), then well-formedness, clause (a)
before clause (b) (rule R86), then the operation's own rule. -/
def evaluate (q : Request P) (d : Word) : Response P :=
  if 9 ≤ q.op.toNat then raise P .errOp (q.op.setWidth 32) 0
  else if ReqPort.a_w ∈ (decodeOp q.op).reads ∧ ¬ TagFits P q.a_w then
    raise P .errReq (q.a_w.setWidth 32) (BitVec.ofNat 32 P.wmax)
  else if q.op.toNat = 7 ∧ ¬ TextFits P q.s_len then
    raise P .errReq (q.s_len.setWidth 32) (BitVec.ofNat 32 P.smax)
  else
    match q.op.toNat with
    | 0 => reinterpRule q
    | 1 => reinterpI32Rule q
    | 2 => reinterpF32Rule q
    | 3 => splitRule q
    | 4 => assembleRule q
    | 5 => bitincRule q
    | 6 => bitdecRule q
    | 7 => parsebinRule q d
    | _ => renderbinRule q

end Sys2Proof.Machine
end

