-- ==== Sys2Proof/Machine/HostSide.lean ====
section
/-! DEFINITION. What the host does to the block (`10_state.md` rule R15, `92_eei_decisions.md` D23):
it drives the request ports, one request after another, and may copy a port of an earlier response
into a port of a later request. Whenever it does, the response ports follow at once (rule R18,
`30_encoding.md` rule R30): every way to change a request port goes through `State.present`. -/

namespace Sys2Proof.Machine

/-- The host drives the request ports: at that instant the response ports carry `exec(request, d)`
(`30_encoding.md` rule R30, `10_state.md` rule R18), with a draw of its own. -/
abbrev State.present (s : State) (q : Request s.params) : State :=
  { s with req := q, rsp := evaluate q s.draw, draws := s.draws + 1 }

/-- The host selects an operation and leaves the other request ports. -/
abbrev State.select (s : State) (op : BitVec 4) : State := s.present { s.req with op := op }

/-- The host copies the value of the response it has read: `a <- r`, `a_w <- r_w`. -/
abbrev State.copyValue (s : State) : State :=
  s.present { s.req with a := s.rsp.r, a_w := s.rsp.r_w }

/-- The host copies the three fields of the response it has read: `f_sign <- r_sign`,
`f_exp <- r_exp`, `f_man <- r_man`. -/
abbrev State.copyFields (s : State) : State :=
  s.present { s.req with f_sign := s.rsp.r_sign, f_exp := s.rsp.r_exp, f_man := s.rsp.r_man }

/-- The host copies the string of the response it has read and drives `len`: `s <- o`,
`s_len <- o_len`. -/
abbrev State.copyText (s : State) (len : BitVec 32) : State :=
  s.present { s.req with s := s.rsp.o, s_len := s.rsp.o_len, len := len }

end Sys2Proof.Machine
end

