-- ==== Sys2Proof/Machine/Step.lean ====
section
/-! DEFINITION. One step: one evaluation of the block on the request its input ports carry
(`30_encoding.md` rules R30, R35; `20_memory.md` rule R27). -/

namespace Sys2Proof.Machine

/-- Evaluate the operation that the `op` port selects at this instant; nothing is fetched and nothing
moves on: the request stays on the ports until the host changes it (`70_reset_and_hazards.md`
rule R98). -/
def step (s : State) : Host.Outcome State Fault Refusal := exec (decodeOp s.req.op) s

/-- The state with the operation code `w` on the `op` port, which is where `step` finds the next
operation. The operands are the other request ports and stay as they are; the response ports follow,
as they do whenever a request port is driven (notes/assumptions/5.md). -/
def State.withFetchWord (s : State) (_nbits w : Nat) : State := s.select (BitVec.ofNat 4 w)

end Sys2Proof.Machine
end

