-- ==== Sys2Proof/Machine/Numeric.lean ====
section
/-! DEFINITION. The number a BitPattern32 denotes (`42_ulpstepper.md` rule R67, general knowledge G4
of `93_implementation_defined.md`). No operation computes it (`10_state.md` rule R11): it is here so
that the source's "strictly greater" can be stated about the step. -/

namespace Sys2Proof.Machine

/-- A numeric value: a rational or an infinity. -/
inductive ExtVal where
  | negInf
  | fin (x : ℚ)
  | posInf
  deriving DecidableEq, Repr

/-- The strict numeric order. -/
def ExtVal.Less : ExtVal → ExtVal → Prop
  | .negInf, .negInf => False
  | .negInf, .fin _ => True
  | .negInf, .posInf => True
  | .fin x, .fin y => x < y
  | .fin _, .posInf => True
  | .fin _, .negInf => False
  | .posInf, _ => False

/-- The magnitude of a finite pattern with fields `e`, `m` (rule R67's two formulas). -/
def finiteMagnitude (e : BitVec 8) (m : BitVec 23) : ℚ :=
  if e = 0 then (2 : ℚ) ^ (-126 : ℤ) * ((m.toNat : ℚ) / 2 ^ 23)
  else (2 : ℚ) ^ ((e.toNat : ℤ) - 127) * (1 + (m.toNat : ℚ) / 2 ^ 23)

/-- The value a pattern denotes; a NaN denotes none. -/
def numericValue (p : Word) : Option ExtVal :=
  if isNaN p then none
  else if isSpecial p then some (if isNegative p then .negInf else .posInf)
  else
    some (.fin (if isNegative p then -finiteMagnitude (exponentField p) (mantissaField p)
      else finiteMagnitude (exponentField p) (mantissaField p)))

end Sys2Proof.Machine
end

