-- ==== Sys2Proof/Safety.lean ====
section
/-! DEFINITION. The terms the statements use: a legal response, a settled machine, requests that an
operation cannot tell apart, and responses that agree up to padding. -/

namespace Sys2Proof.Machine

/-- What every response of the block satisfies, whatever the request. -/
structure Response.Legal {P : Params} (x : Response P) : Prop where
  /-- Status code 7 is never produced (`30_encoding.md` rule R37, U6). -/
  status_ne : x.status ≠ 7
  /-- Under an `ERR_` status only `status`, `e_a`, `e_b` carry anything (rules R34 (c), R88). -/
  err_rest : 3 ≤ x.status.toNat →
    x = { Response.zero P with status := x.status, e_a := x.e_a, e_b := x.e_b }
  /-- Under `OK`, `FAIL_LEN`, `FAIL_DIGIT` no error item is written (rules R36, R88). -/
  ok_items : x.status.toNat ≤ 2 → x.e_a = 0 ∧ x.e_b = 0
  /-- The width tag names a width the port carries, or none (rule R43). -/
  tag_le : x.r_w.toNat ≤ P.wmax
  /-- The bits of `r` above the value are 0, and `r` is 0 without a value (rules R34 (c), R43). -/
  r_lt : x.r.toNat < 2 ^ (8 * x.r_w.toNat)
  /-- The fields are in range (`41_fieldcodec.md` rule R55). -/
  sign_lt : x.r_sign.toNat < 2
  exp_lt : x.r_exp.toNat < 256
  man_lt : x.r_man.toNat < 2 ^ 23
  /-- The string fits the port, is of `'0'` and `'1'`, and the slots after it are 0
  (rules R33, R74). -/
  len_le : x.o_len.toNat ≤ P.smax
  chars : ∀ j < x.o_len.toNat, (portChar x.o j).toNat = 48 ∨ (portChar x.o j).toNat = 49
  padding : ∀ j, x.o_len.toNat ≤ j → portChar x.o j = 0

/-- The response ports are a response to the request ports (`10_state.md` rule R18). -/
def State.Settled (s : State) : Prop := ∃ d : Word, s.rsp = evaluate s.req d

/-- What state `s` can be later: the block evaluates the request on its ports any number of times, and
the host drives the request ports at any time and in any way. -/
inductive Later (s : State) : State → Prop
  | now : Later s s
  | step {t u : State} : Later s t → step t = .next u → Later s u
  | present {t : State} (q : Request t.params) : Later s t → Later s (t.present q)

/-- Two requests, perhaps on two instances, that agree on what port `p` gives an operation: for `a`
only the bits below `8 * a_w` count (`30_encoding.md` rule R34 (a)), for `s` only the characters
below `s_len` (rule R33). -/
def SamePort {P Q : Params} (q : Request P) (q' : Request Q) : ReqPort → Prop
  | .op => q.op = q'.op
  | .a => q.a.toNat % 2 ^ (8 * q.a_w.toNat) = q'.a.toNat % 2 ^ (8 * q'.a_w.toNat)
  | .a_w => q.a_w = q'.a_w
  | .t_w => q.t_w = q'.t_w
  | .f_sign => q.f_sign = q'.f_sign
  | .f_exp => q.f_exp = q'.f_exp
  | .f_man => q.f_man = q'.f_man
  | .len => q.len = q'.len
  | .s_len => q.s_len = q'.s_len
  | .s => (requestText q).map BitVec.toNat = (requestText q').map BitVec.toNat

/-- Two requests that agree on every port operation `i` reads (rule R36). -/
def SeenAlike {P Q : Params} (i : Instr) (q : Request P) (q' : Request Q) : Prop :=
  ∀ p ∈ i.reads, SamePort q q' p

/-- Two responses, perhaps of two instances, that agree on every port up to padding (`00_scope.md`
rule R5). -/
structure Response.Agree {P Q : Params} (x : Response P) (y : Response Q) : Prop where
  status : x.status = y.status
  r : x.r.toNat = y.r.toNat
  r_w : x.r_w = y.r_w
  r_sign : x.r_sign = y.r_sign
  r_exp : x.r_exp = y.r_exp
  r_man : x.r_man = y.r_man
  o_len : x.o_len = y.o_len
  o : ∀ j < x.o_len.toNat, (portChar x.o j).toNat = (portChar y.o j).toNat
  e_a : x.e_a = y.e_a
  e_b : x.e_b = y.e_b

/-- Every wire of the response port is 0. -/
def Response.PortIsZero {P : Params} (x : Response P) : RspPort → Prop
  | .status => x.status = 0
  | .r => x.r = 0
  | .r_w => x.r_w = 0
  | .r_sign => x.r_sign = 0
  | .r_exp => x.r_exp = 0
  | .r_man => x.r_man = 0
  | .o_len => x.o_len = 0
  | .o => x.o = Vector.replicate P.smax 0
  | .e_a => x.e_a = 0
  | .e_b => x.e_b = 0

/-- The statuses an operation can end with (`60_exceptions.md` rule R80, column "produced by"). -/
def statusesOf : Instr → List Status
  | .reinterp => [.ok, .errWidth, .errReq]
  | .reinterpI32 => [.ok, .errWidth, .errReq]
  | .reinterpF32 => [.ok, .errWidth, .errReq]
  | .split => [.ok, .errWidth, .errReq]
  | .assemble => [.ok]
  | .bitinc => [.ok, .errWidth, .errReq]
  | .bitdec => [.ok, .errWidth, .errReq]
  | .parsebin => [.ok, .failLen, .failDigit, .errReq]
  | .renderbin => [.ok, .errRange, .errReq]
  | .reserved9 => [.errOp]
  | .reserved10 => [.errOp]
  | .reserved11 => [.errOp]
  | .reserved12 => [.errOp]
  | .reserved13 => [.errOp]
  | .reserved14 => [.errOp]
  | .reserved15 => [.errOp]

/-- A safe step: it answers a next state. The block has no other outcome (`70_reset_and_hazards.md`
rule R99). -/
def SafeStep (s : State) : Prop := ∃ t, step s = .next t

/-- The base-2 value of a list of digit characters, first character most significant
(`43_binarystringcodec.md` rule R70). -/
def digitsValue {w : Nat} : List (BitVec w) → Nat
  | [] => 0
  | c :: cs => (c.toNat - 48) * 2 ^ cs.length + digitsValue cs

end Sys2Proof.Machine
end

