-- ==== Sys2Proof/Certificates/Slice0/Obligations.lean ====
section
/-! DEFINITION. The statements for the provers. Each says what the block answers: a statement about one
operation gives the whole next state, so it is also that operation's frame (the request ports and the
parameters stay, `10_state.md` rules R14, R16) and its completion. In every such statement `n` is the
model's own counter of draws (notes/assumptions/3.md); nothing is said about it but in
`Obligations.EachEvaluationSpendsOneDraw`. -/

open Sys2Proof Sys2Proof.Machine

/-! ### Selecting an operation -/

/-- `30_encoding.md` rule R35 (and the table's reserved rows): each code, written bit by bit as the
table prints it, selects its operation, and the step runs what `op` alone selects. -/
def Obligations.OpCodeSelectsOperation : Prop :=
  (decodeOp 0b0000#4 = .reinterp ∧ decodeOp 0b0001#4 = .reinterpI32 ∧
    decodeOp 0b0010#4 = .reinterpF32 ∧ decodeOp 0b0011#4 = .split ∧
    decodeOp 0b0100#4 = .assemble ∧ decodeOp 0b0101#4 = .bitinc ∧
    decodeOp 0b0110#4 = .bitdec ∧ decodeOp 0b0111#4 = .parsebin ∧
    decodeOp 0b1000#4 = .renderbin ∧ decodeOp 0b1001#4 = .reserved9 ∧
    decodeOp 0b1010#4 = .reserved10 ∧ decodeOp 0b1011#4 = .reserved11 ∧
    decodeOp 0b1100#4 = .reserved12 ∧ decodeOp 0b1101#4 = .reserved13 ∧
    decodeOp 0b1110#4 = .reserved14 ∧ decodeOp 0b1111#4 = .reserved15) ∧
  ∀ s : State, step s = exec (decodeOp s.req.op) s

/-- A step runs the decoded operation: when the code `w` decodes to `i`, the step on the state with
that code on the `op` port is `exec i` there, and a code with a bit above bit 3 decodes to nothing
(the byte form of a code is the model's choice, notes/assumptions/6.md). -/
def Obligations.PlacedCodeRuns : Prop :=
  (∀ (s : State) (nbits w : Nat) (i : Instr), decodeTableWord nbits w = some i →
    step (s.withFetchWord nbits w) = exec i (s.withFetchWord nbits w)) ∧
  (∀ nbits w, w < 16 → decodeTableWord nbits w = some (decodeOp (BitVec.ofNat 4 w))) ∧
  ∀ nbits w, 16 ≤ w → decodeTableWord nbits w = none

/-- Decoding and encoding of codes are inverse to each other, and bytes after the code are left. That a
code stands in the low four bits of a byte is the model's choice (notes/assumptions/6.md). -/
def Obligations.CodeRoundTrip : Prop :=
  (∀ (i : Instr) (rest : List Byte), decode (encode i ++ rest) = .ok (i, rest)) ∧
  ∀ op : BitVec 4, encodeOp (decodeOp op) = op

/-- Decoding the request encoding of a call (rule R41) gives back the call with every operand, and the
request a call was read from is, for the operation, the same request. -/
def Obligations.CallRoundTrip : Prop :=
  ∀ P : Params, (∀ c : Call P, decodeCall (encodeCall c) = c) ∧
    ∀ q : Request P, SeenAlike (decodeOp q.op) q (encodeCall (decodeCall q))

/-! ### Requests the block turns away -/

/-- A reserved code answers `ERR_OP` with the code, whatever the other ports carry: for a step as
`30_encoding.md` rule R38 has it; for `exec` of a reserved row in every state, also where the `op` port
carries another code, as the model reads that rule (DEDUCED, notes/assumptions/10.md). -/
def Obligations.ReservedCodesRaiseErrOp : Prop :=
  (∀ s : State, 9 ≤ s.req.op.toNat →
    ∃ n, step s = .next { s with
      rsp := { Response.zero s.params with status := 5, e_a := s.req.op.setWidth 32 }, draws := n }) ∧
  ∀ i ∈ [Instr.reserved9, .reserved10, .reserved11, .reserved12, .reserved13, .reserved14,
      .reserved15], ∀ s : State,
    ∃ n, exec i s = .next { s with
      rsp := { Response.zero s.params with status := 5, e_a := s.req.op.setWidth 32 }, draws := n }

/-- `60_exceptions.md` rule R86: which requests are malformed, what they are answered, and that a
well-formed one is never answered `ERR_REQ`. -/
def Obligations.MalformedRequestsRaiseErrReq : Prop :=
  (∀ (i : Instr) (s : State), i ∉ [Instr.assemble, .parsebin, .reserved9, .reserved10, .reserved11,
      .reserved12, .reserved13, .reserved14, .reserved15] →
    (s.req.a_w.toNat = 0 ∨ s.params.wmax < s.req.a_w.toNat) →
    ∃ n, exec i s = .next { s with
      rsp := { Response.zero s.params with
        status := 6, e_a := s.req.a_w.setWidth 32, e_b := BitVec.ofNat 32 s.params.wmax },
      draws := n }) ∧
  (∀ s : State, s.params.smax < s.req.s_len.toNat →
    ∃ n, exec .parsebin s = .next { s with
      rsp := { Response.zero s.params with
        status := 6, e_a := s.req.s_len.setWidth 32, e_b := BitVec.ofNat 32 s.params.smax },
      draws := n }) ∧
  ∀ (i : Instr) (s : State),
    (i ∉ [Instr.assemble, .parsebin] → 1 ≤ s.req.a_w.toNat ∧ s.req.a_w.toNat ≤ s.params.wmax) →
    (i = .parsebin → s.req.s_len.toNat ≤ s.params.smax) →
    ∀ t, exec i s = .next t → t.rsp.status ≠ 6

/-- `60_exceptions.md` rule R82: on a well-formed request, the six width-checked operations answer
`ERR_WIDTH` with the required and the actual width exactly when the two differ. -/
def Obligations.WidthMismatchRaisesErrWidth : Prop :=
  ∀ (i : Instr) (s : State) (required : BitVec 8),
    (i = .reinterp ∧ required = s.req.t_w ∨
      i ∈ [Instr.reinterpI32, .reinterpF32, .split, .bitinc, .bitdec] ∧ required = 4) →
    TagFits s.params s.req.a_w →
    (s.req.a_w ≠ required →
      ∃ n, exec i s = .next { s with
        rsp := { Response.zero s.params with
          status := 3, e_a := required.setWidth 32, e_b := s.req.a_w.setWidth 32 },
        draws := n }) ∧
    (s.req.a_w = required → ∃ t, exec i s = .next t ∧ t.rsp.status = 0)

/-- `60_exceptions.md` rule R88: under an error every port but `status`, `e_a`, `e_b` is 0; `OK`,
`FAIL_LEN` and `FAIL_DIGIT` leave both items 0. -/
def Obligations.ErrorsCarryOnlyTheirItems : Prop :=
  ∀ (i : Instr) (s t : State), exec i s = .next t →
    (3 ≤ t.rsp.status.toNat → t.rsp = { Response.zero t.params with
      status := t.rsp.status, e_a := t.rsp.e_a, e_b := t.rsp.e_b }) ∧
    (t.rsp.status.toNat ≤ 2 → t.rsp.e_a = 0 ∧ t.rsp.e_b = 0)

/-- `60_exceptions.md` rule R80 (column "produced by") and `30_encoding.md` rule R37: an operation ends
with one of its own statuses; each of them has the code of the table, and 7 is none. -/
def Obligations.OperationsEndWithTheirStatuses : Prop :=
  [Status.ok, .failLen, .failDigit, .errWidth, .errRange, .errOp, .errReq].map Status.code =
    [0, 1, 2, 3, 4, 5, 6] ∧
  ∀ (i : Instr) (s t : State), exec i s = .next t →
    (∃ e ∈ statusesOf i, t.rsp.status = e.code) ∧ t.rsp.status ≠ 7

/-- `60_exceptions.md` rule R87: the one status a step reports, as a chain of conditions in the order
of their priority; and among several invalid characters the first from the left is the one reported. -/
def Obligations.StatusPriority : Prop :=
  ∀ s t : State, step s = .next t →
    (t.rsp.status = 2 → ∃ j < s.req.s_len.toNat,
      (portChar s.req.s j).toNat ≠ 48 ∧ (portChar s.req.s j).toNat ≠ 49 ∧
      (∀ k < j, (portChar s.req.s k).toNat = 48 ∨ (portChar s.req.s k).toNat = 49) ∧
      t.rsp.r.toNat = (portChar s.req.s j).toNat) ∧
    t.rsp.status =
      if 9 ≤ s.req.op.toNat then 5
      else if s.req.op.toNat ∉ [4, 7] ∧ ¬ TagFits s.params s.req.a_w then 6
      else if s.req.op.toNat = 7 ∧ ¬ TextFits s.params s.req.s_len then 6
      else if s.req.op.toNat = 0 ∧ s.req.a_w ≠ s.req.t_w then 3
      else if s.req.op.toNat ∈ [1, 2, 3, 5, 6] ∧ s.req.a_w ≠ 4 then 3
      else if s.req.op.toNat = 7 ∧ s.req.len.toInt < s.req.s_len.toNat then 1
      else if s.req.op.toNat = 7 ∧ ∃ j < s.req.s_len.toNat,
        (portChar s.req.s j).toNat ≠ 48 ∧ (portChar s.req.s j).toNat ≠ 49 then 2
      else if s.req.op.toNat = 8 ∧ (8 * s.req.a_w.toNat : Int) < s.req.len.toInt then 4
      else 0

/-! ### BitReinterpreter -/

/-- `40_bitreinterpreter.md` rule R50. -/
def Obligations.ReinterpCopiesUnderWidthCheck : Prop :=
  ∀ s : State, TagFits s.params s.req.a_w →
    ∃ n, exec .reinterp s = .next { s with
      rsp :=
        if s.req.a_w ≠ s.req.t_w then
          { Response.zero s.params with
            status := 3, e_a := s.req.t_w.setWidth 32, e_b := s.req.a_w.setWidth 32 }
        else
          { Response.zero s.params with
            status := 0
            r := (s.req.a.setWidth (8 * s.req.a_w.toNat)).setWidth s.params.vw
            r_w := s.req.t_w },
      draws := n }

/-- `40_bitreinterpreter.md` rule R51. -/
def Obligations.ReinterpI32CopiesFourBytes : Prop :=
  ∀ s : State, TagFits s.params s.req.a_w →
    ∃ n, exec .reinterpI32 s = .next { s with
      rsp :=
        if s.req.a_w ≠ 4 then
          { Response.zero s.params with status := 3, e_a := 4, e_b := s.req.a_w.setWidth 32 }
        else
          { Response.zero s.params with
            status := 0, r := (s.req.a.setWidth 32).setWidth s.params.vw, r_w := 4 },
      draws := n }

/-- `40_bitreinterpreter.md` rule R52. -/
def Obligations.ReinterpF32CopiesFourBytes : Prop :=
  ∀ s : State, TagFits s.params s.req.a_w →
    ∃ n, exec .reinterpF32 s = .next { s with
      rsp :=
        if s.req.a_w ≠ 4 then
          { Response.zero s.params with status := 3, e_a := 4, e_b := s.req.a_w.setWidth 32 }
        else
          { Response.zero s.params with
            status := 0, r := (s.req.a.setWidth 32).setWidth s.params.vw, r_w := 4 },
      draws := n }

/-- `30_encoding.md` rule R42 (a), (b): on every request, well formed or not, REINTERP_I32 and
REINTERP_F32 answer what REINTERP answers with `t_w = 4`. -/
def Obligations.SpecialReinterpretationsAreReinterp : Prop :=
  ∀ s : State, ∃ rsp n,
    exec .reinterp { s with req := { s.req with t_w := 4 } } =
      .next { s with req := { s.req with t_w := 4 }, rsp := rsp, draws := n } ∧
    exec .reinterpI32 s = .next { s with rsp := rsp, draws := n } ∧
    exec .reinterpF32 s = .next { s with rsp := rsp, draws := n }

/-- The law of `40_bitreinterpreter.md` rule R53, which the spec marks as its own inference "[derived:
from rules R50, R51, R52]": with an accepted width each of the three operations is the identity on
the value's bits, and any of the three applied to the result answers the same value again. -/
def Obligations.ReinterpretationKeepsBits : Prop :=
  ∀ i ∈ [Instr.reinterp, .reinterpI32, .reinterpF32],
    ∀ j ∈ [Instr.reinterp, .reinterpI32, .reinterpF32],
    ∀ s : State, TagFits s.params s.req.a_w →
      s.req.a_w = (if i = .reinterp then s.req.t_w else 4) →
      ∃ t, exec i s = .next t ∧ t.rsp.status = 0 ∧ t.rsp.r_w = s.req.a_w ∧
        t.rsp.r.setWidth (8 * s.req.a_w.toNat) = s.req.a.setWidth (8 * s.req.a_w.toNat) ∧
        (t.rsp.r_w = (if j = .reinterp then t.req.t_w else 4) →
          ∃ u, exec j t.copyValue = .next u ∧ u.rsp.status = 0 ∧ u.rsp.r_w = t.rsp.r_w ∧
            u.rsp.r.toNat = t.rsp.r.toNat)

/-! ### FieldCodec -/

/-- `10_state.md` rule R12: the three fields are bits 31, 30..23 and 22..0, and
`sign·2^31 | exponent·2^23 | mantissa` is the pattern. -/
def Obligations.FieldsReconstructPattern : Prop :=
  ∀ p : Word,
    (signField p).toNat = p.toNat / 2 ^ 31 ∧
    (exponentField p).toNat = p.toNat / 2 ^ 23 % 256 ∧
    (mantissaField p).toNat = p.toNat % 2 ^ 23 ∧
    (signField p).toNat * 2 ^ 31 ||| (exponentField p).toNat * 2 ^ 23 ||| (mantissaField p).toNat =
      p.toNat ∧
    p = ((signField p ++ exponentField p) ++ mantissaField p).setWidth 32

/-- `41_fieldcodec.md` rule R55. -/
def Obligations.SplitAnswersFields : Prop :=
  ∀ s : State, TagFits s.params s.req.a_w →
    ∃ n, exec .split s = .next { s with
      rsp :=
        if s.req.a_w ≠ 4 then
          { Response.zero s.params with status := 3, e_a := 4, e_b := s.req.a_w.setWidth 32 }
        else
          { Response.zero s.params with
            status := 0
            r_sign := BitVec.ofNat 32 ((s.req.a.setWidth 32).toNat / 2 ^ 31)
            r_exp := BitVec.ofNat 32 ((s.req.a.setWidth 32).toNat / 2 ^ 23 % 256)
            r_man := BitVec.ofNat 32 ((s.req.a.setWidth 32).toNat % 2 ^ 23) },
      draws := n }

/-- `41_fieldcodec.md` rule R56, in the source's arithmetic form; every request is well formed. -/
def Obligations.AssembleMasksAndJoins : Prop :=
  ∀ s : State,
    ∃ n, exec .assemble s = .next { s with
      rsp := { Response.zero s.params with
        status := 0
        r := ((s.req.f_sign &&& 1) <<< 31 ||| (s.req.f_exp &&& 0xFF) <<< 23 |||
          (s.req.f_man &&& 0x7FFFFF)).setWidth s.params.vw
        r_w := 4 },
      draws := n }

/-- `41_fieldcodec.md` rule R57: ASSEMBLE of the three results of SPLIT gives the pattern back, for all
2^32 patterns. -/
def Obligations.AssembleAfterSplit : Prop :=
  ∀ s : State, s.req.a_w = 4 →
    ∃ t, exec .split s = .next t ∧ t.rsp.status = 0 ∧
      ∃ u, exec .assemble t.copyFields = .next u ∧ u.rsp.status = 0 ∧ u.rsp.r_w = 4 ∧
        u.rsp.r.setWidth 32 = s.req.a.setWidth 32

/-- The law of `41_fieldcodec.md` rule R58, which the spec marks "[derived: from rules R55, R56]":
SPLIT of the result of ASSEMBLE gives the masked fields, which are the inputs exactly when they are
in range. -/
def Obligations.SplitAfterAssemble : Prop :=
  ∀ s : State,
    ∃ t, exec .assemble s = .next t ∧
      ∃ u, exec .split t.copyValue = .next u ∧ u.rsp.status = 0 ∧
        u.rsp.r_sign = s.req.f_sign &&& 1 ∧
        u.rsp.r_exp = s.req.f_exp &&& 0xFF ∧
        u.rsp.r_man = s.req.f_man &&& 0x7FFFFF ∧
        ((u.rsp.r_sign = s.req.f_sign ∧ u.rsp.r_exp = s.req.f_exp ∧ u.rsp.r_man = s.req.f_man) ↔
          s.req.f_sign.toNat ≤ 1 ∧ s.req.f_exp.toNat ≤ 255 ∧ s.req.f_man.toNat ≤ 8388607)

/-! ### UlpStepper -/

/-- `42_ulpstepper.md` rule R60: each class as its test on bits and as its ranges of patterns. -/
def Obligations.ClassesAreRanges : Prop :=
  ∀ p : Word,
    (isSpecial p = true ↔ exponentField p = 255) ∧
    (isSpecial p = true ↔
      0x7F800000 ≤ p.toNat ∧ p.toNat ≤ 0x7FFFFFFF ∨ 0xFF800000 ≤ p.toNat) ∧
    (isPosInf p = true ↔ p.toNat = 0x7F800000) ∧
    (isPosInf p = true ↔ signField p = 0 ∧ exponentField p = 255 ∧ mantissaField p = 0) ∧
    (isNegInf p = true ↔ p.toNat = 0xFF800000) ∧
    (isNegInf p = true ↔ signField p = 1 ∧ exponentField p = 255 ∧ mantissaField p = 0) ∧
    (isNaN p = true ↔ exponentField p = 255 ∧ mantissaField p ≠ 0) ∧
    (isNaN p = true ↔
      0x7F800001 ≤ p.toNat ∧ p.toNat ≤ 0x7FFFFFFF ∨ 0xFF800001 ≤ p.toNat) ∧
    (isNegZero p = true ↔ p.toNat = 0x80000000) ∧
    (isPosZero p = true ↔ p.toNat = 0)

/-- `42_ulpstepper.md` rules R61 and R64. -/
def Obligations.BitincStepsUp : Prop :=
  ∀ s : State, TagFits s.params s.req.a_w →
    ∃ n, exec .bitinc s = .next { s with
      rsp :=
        if s.req.a_w ≠ 4 then
          { Response.zero s.params with status := 3, e_a := 4, e_b := s.req.a_w.setWidth 32 }
        else
          { Response.zero s.params with
            status := 0
            r :=
              (if (s.req.a.setWidth 32).extractLsb' 23 8 = 0xFF#8 then
                (if s.req.a.setWidth 32 = 0xFF800000#32 then 0xFF7FFFFF#32 else s.req.a.setWidth 32)
              else if s.req.a.setWidth 32 = 0x80000000#32 then 0x00000001#32
              else if (s.req.a.setWidth 32).toInt < 0 then s.req.a.setWidth 32 - 1#32
              else s.req.a.setWidth 32 + 1#32).setWidth s.params.vw
            r_w := 4 },
      draws := n }

/-- `42_ulpstepper.md` rules R62 and R64. -/
def Obligations.BitdecStepsDown : Prop :=
  ∀ s : State, TagFits s.params s.req.a_w →
    ∃ n, exec .bitdec s = .next { s with
      rsp :=
        if s.req.a_w ≠ 4 then
          { Response.zero s.params with status := 3, e_a := 4, e_b := s.req.a_w.setWidth 32 }
        else
          { Response.zero s.params with
            status := 0
            r :=
              (if (s.req.a.setWidth 32).extractLsb' 23 8 = 0xFF#8 then
                (if s.req.a.setWidth 32 = 0x7F800000#32 then 0x7F7FFFFF#32 else s.req.a.setWidth 32)
              else if s.req.a.setWidth 32 = 0x00000000#32 then 0x80000001#32
              else if (s.req.a.setWidth 32).toInt < 0 then s.req.a.setWidth 32 + 1#32
              else s.req.a.setWidth 32 - 1#32).setWidth s.params.vw
            r_w := 4 },
      draws := n }

/-- `42_ulpstepper.md` rule R68, the source's boundary table, as answers of the block. -/
def Obligations.StepperBoundaryTable : Prop :=
  ∀ (s : State) (p : Word), s.req.a_w = 4 → s.req.a.setWidth 32 = p →
    ∃ t u, exec .bitinc s = .next t ∧ exec .bitdec s = .next u ∧
      t.rsp.status = 0 ∧ u.rsp.status = 0 ∧
      (p = 0x80000000#32 → t.rsp.r.toNat = 0x00000001) ∧
      (p = 0x00000000#32 → u.rsp.r.toNat = 0x80000001) ∧
      (p = 0xFF800000#32 → t.rsp.r.toNat = 0xFF7FFFFF) ∧
      (p = 0x7F800000#32 → u.rsp.r.toNat = 0x7F7FFFFF) ∧
      (p = 0x7F800000#32 → t.rsp.r.toNat = 0x7F800000) ∧
      (p = 0xFF800000#32 → u.rsp.r.toNat = 0xFF800000) ∧
      (isNaN p = true → t.rsp.r.toNat = p.toNat ∧ u.rsp.r.toNat = p.toNat)

/-- `42_ulpstepper.md` rule R65, which the spec marks "[derived: from rules R60, R61, R62]": the third
case of either step neither wraps nor changes the sign, so as integers it is plus or minus one, and
its result is no NaN. -/
def Obligations.StepNeverWraps : Prop :=
  ∀ p : Word, isSpecial p = false →
    (isNegZero p = false →
      (stepUp p).toInt = (if p.toInt < 0 then p.toInt - 1 else p.toInt + 1) ∧
      (stepUp p).toNat = (if p.toInt < 0 then p.toNat - 1 else p.toNat + 1) ∧
      signField (stepUp p) = signField p ∧ isNaN (stepUp p) = false) ∧
    (isPosZero p = false →
      (stepDown p).toInt = (if p.toInt < 0 then p.toInt + 1 else p.toInt - 1) ∧
      (stepDown p).toNat = (if p.toInt < 0 then p.toNat + 1 else p.toNat - 1) ∧
      signField (stepDown p) = signField p ∧ isNaN (stepDown p) = false)

/-- The inverse law of `42_ulpstepper.md` rule R66, which the spec marks "[derived: from rules R61,
R62]": each composition is the identity but for its two exceptions, on every pattern. -/
def Obligations.StepsAreInverse : Prop :=
  ∀ s : State, s.req.a_w = 4 →
    (∃ t, exec .bitinc s = .next t ∧ ∃ u, exec .bitdec t.copyValue = .next u ∧
      u.rsp.status = 0 ∧ u.rsp.r_w = 4 ∧
      u.rsp.r.setWidth 32 =
        if s.req.a.setWidth 32 = 0x80000000#32 then 0x00000000#32
        else if s.req.a.setWidth 32 = 0x7F800000#32 then 0x7F7FFFFF#32
        else s.req.a.setWidth 32) ∧
    ∃ t, exec .bitdec s = .next t ∧ ∃ u, exec .bitinc t.copyValue = .next u ∧
      u.rsp.status = 0 ∧ u.rsp.r_w = 4 ∧
      u.rsp.r.setWidth 32 =
        if s.req.a.setWidth 32 = 0x00000000#32 then 0x80000000#32
        else if s.req.a.setWidth 32 = 0xFF800000#32 then 0xFF7FFFFF#32
        else s.req.a.setWidth 32

/-- What the source's "strictly greater" means (`42_ulpstepper.md` rule R67; the numeric value of a
pattern is general knowledge G4, notes/assumptions/8.md): for a pattern that is no NaN, BITINC answers
a pattern whose value is the least one strictly greater, but at +Infinity, which it leaves; BITDEC
mirrors it. At the pattern next to zero the zero answered is -0 going up and +0 going down. -/
def Obligations.StepIsToTheNextNumber : Prop :=
  ∀ (s : State) (x : ExtVal), s.req.a_w = 4 → numericValue (s.req.a.setWidth 32) = some x →
    (∃ t, exec .bitinc s = .next t ∧ ∃ y, numericValue (t.rsp.r.setWidth 32) = some y ∧
      (x = .posInf → y = .posInf) ∧
      (x ≠ .posInf → x.Less y ∧
        ∀ p z, numericValue p = some z → x.Less z → z = y ∨ y.Less z) ∧
      (s.req.a.setWidth 32 = 0x80000001#32 → t.rsp.r.setWidth 32 = 0x80000000#32)) ∧
    ∃ t, exec .bitdec s = .next t ∧ ∃ y, numericValue (t.rsp.r.setWidth 32) = some y ∧
      (x = .negInf → y = .negInf) ∧
      (x ≠ .negInf → y.Less x ∧
        ∀ p z, numericValue p = some z → z.Less x → z = y ∨ z.Less y) ∧
      (s.req.a.setWidth 32 = 0x00000001#32 → t.rsp.r.setWidth 32 = 0x00000000#32)

/-! ### PARSEBIN -/

/-- `43_binarystringcodec.md` rules R70 (1) and R72: a text longer than the limit is answered
`FAIL_LEN`, whatever its characters; `r[31:0]` is some 32-bit value `d` of which nothing is said. -/
def Obligations.ParsebinOverLimitFails : Prop :=
  ∀ s : State, TextFits s.params s.req.s_len → s.req.len.toInt < s.req.s_len.toNat →
    ∃ (d : Word) (n : Nat), exec .parsebin s = .next { s with
      rsp := { Response.zero s.params with status := 1, r := d.setWidth s.params.vw, r_w := 4 },
      draws := n }

/-- `43_binarystringcodec.md` rule R73: the first character that is no digit is answered, its code point
zero-extended; the digits before it leave no trace, and the code point is never that of a digit. -/
def Obligations.ParsebinReportsFirstOffender : Prop :=
  ∀ (s : State) (j : Nat), TextFits s.params s.req.s_len → s.req.s_len.toNat ≤ s.req.len.toInt →
    j < s.req.s_len.toNat →
    (portChar s.req.s j).toNat ≠ 48 → (portChar s.req.s j).toNat ≠ 49 →
    (∀ k < j, (portChar s.req.s k).toNat = 48 ∨ (portChar s.req.s k).toNat = 49) →
    ∃ n, exec .parsebin s = .next { s with
      rsp := { Response.zero s.params with
        status := 2, r := ((portChar s.req.s j).setWidth 32).setWidth s.params.vw, r_w := 4 },
      draws := n } ∧
      ((portChar s.req.s j).setWidth 32 : Word) ≠ 0x30 ∧
      ((portChar s.req.s j).setWidth 32 : Word) ≠ 0x31 ∧
      ((portChar s.req.s j).setWidth 32 : Word).toNat = (portChar s.req.s j).toNat

/-- `43_binarystringcodec.md` rules R70 (3) and R77: a text of digits within the limit is answered the
number it denotes in base 2, first character most significant, reduced modulo 2^32; the empty text
gives 0. -/
def Obligations.ParsebinAnswersBaseTwoValue : Prop :=
  ∀ s : State, TextFits s.params s.req.s_len → s.req.s_len.toNat ≤ s.req.len.toInt →
    (∀ k < s.req.s_len.toNat, (portChar s.req.s k).toNat = 48 ∨ (portChar s.req.s k).toNat = 49) →
    ∃ n, exec .parsebin s = .next { s with
      rsp := { Response.zero s.params with
        status := 0
        r := (BitVec.ofNat 32 (digitsValue (requestText s.req))).setWidth s.params.vw
        r_w := 4 },
      draws := n }

/-- The consequences `43_binarystringcodec.md` rule R71 draws, marked there "[derived: from rule R70]":
a negative limit fails every text, the empty one too; the empty text with a limit of 0 or more
succeeds with 0; a limit of 0 accepts no other text. -/
def Obligations.ParsebinLimitCorners : Prop :=
  ∀ s : State, TextFits s.params s.req.s_len →
    ∃ t, exec .parsebin s = .next t ∧
      (s.req.len.toInt < 0 → t.rsp.status = 1) ∧
      (0 ≤ s.req.len.toInt → s.req.s_len = 0 → t.rsp.status = 0 ∧ t.rsp.r = 0) ∧
      (s.req.len = 0 → (t.rsp.status = 0 ↔ s.req.s_len = 0))

/-! ### RENDERBIN -/

/-- `43_binarystringcodec.md` rules R74 and R75: the range error, the explicit length and the automatic
length, and the characters of the string. -/
def Obligations.RenderbinAnswersBits : Prop :=
  ∀ s : State, TagFits s.params s.req.a_w →
    ((8 * s.req.a_w.toNat : Int) < s.req.len.toInt →
      ∃ n, exec .renderbin s = .next { s with
        rsp := { Response.zero s.params with
          status := 4, e_a := s.req.len, e_b := BitVec.ofNat 32 (8 * s.req.a_w.toNat) },
        draws := n }) ∧
    (s.req.len.toInt ≤ 8 * s.req.a_w.toNat →
      ∃ (k : Nat) (o : Vector (BitVec s.params.charW) s.params.smax) (n : Nat),
        exec .renderbin s = .next { s with
          rsp := { Response.zero s.params with status := 0, o_len := BitVec.ofNat 16 k, o := o },
          draws := n } ∧
        1 ≤ k ∧ k ≤ 8 * s.req.a_w.toNat ∧ k ≤ s.params.smax ∧ k < 2 ^ 16 ∧
        (0 < s.req.len.toInt → (k : Int) = s.req.len.toInt) ∧
        (s.req.len.toInt ≤ 0 → s.req.a.setWidth (8 * s.req.a_w.toNat) = 0 → k = 1) ∧
        (s.req.len.toInt ≤ 0 → s.req.a.setWidth (8 * s.req.a_w.toNat) ≠ 0 →
          s.req.a.getLsbD (k - 1) = true ∧
          ∀ i, k ≤ i → i < 8 * s.req.a_w.toNat → s.req.a.getLsbD i = false) ∧
        (∀ j < k, (portChar o j).toNat = if s.req.a.getLsbD (k - 1 - j) then 0x31 else 0x30) ∧
        ∀ j, k ≤ j → portChar o j = 0)

/-- The law of `43_binarystringcodec.md` rule R76, which the spec marks "[derived: from rules R70, R74,
R75, R77]": PARSEBIN of what RENDERBIN answered, with any limit that lets it pass, gives the bits that
were shown; with an explicit length of at most 32, and with the automatic length when the value's
highest set bit is below bit 32. -/
def Obligations.ParseAfterRender : Prop :=
  ∀ (s : State) (limit : BitVec 32), TagFits s.params s.req.a_w →
    s.req.len.toInt ≤ 8 * s.req.a_w.toNat → s.req.len.toInt ≤ 32 →
    (s.req.len.toInt ≤ 0 → (s.req.a.setWidth (8 * s.req.a_w.toNat)).toNat < 2 ^ 32) →
    ∃ t, exec .renderbin s = .next t ∧ t.rsp.status = 0 ∧
      (t.rsp.o_len.toNat ≤ limit.toInt →
        ∃ u, exec .parsebin (t.copyText limit) = .next u ∧ u.rsp.status = 0 ∧ u.rsp.r_w = 4 ∧
          (0 < s.req.len.toInt →
            u.rsp.r.toNat = s.req.a.toNat % 2 ^ s.req.len.toInt.toNat) ∧
          (s.req.len.toInt ≤ 0 →
            u.rsp.r.toNat = s.req.a.toNat % 2 ^ (8 * s.req.a_w.toNat)))

/-- The law of `43_binarystringcodec.md` rule R78, which the spec marks "[derived: from rules R70, R74,
R75]": rendering a parsed text of 1 to 32 digits with its own length restores it, leading zeros too;
the automatic length drops the leading zeros. -/
def Obligations.RenderAfterParse : Prop :=
  ∀ s : State, TextFits s.params s.req.s_len → s.req.s_len.toNat ≤ s.req.len.toInt →
    1 ≤ s.req.s_len.toNat → s.req.s_len.toNat ≤ 32 →
    (∀ k < s.req.s_len.toNat, (portChar s.req.s k).toNat = 48 ∨ (portChar s.req.s k).toNat = 49) →
    ∃ t, exec .parsebin s = .next t ∧ t.rsp.status = 0 ∧
      ∀ len : BitVec 32,
        ∃ u, exec .renderbin (t.copyValue.present { t.copyValue.req with len := len }) = .next u ∧
          (len.toNat = s.req.s_len.toNat →
            u.rsp.status = 0 ∧ u.rsp.o_len = s.req.s_len ∧
            ∀ j < s.req.s_len.toNat, (portChar u.rsp.o j).toNat = (portChar s.req.s j).toNat) ∧
          (len = 0 → u.rsp.status = 0 ∧
            ((portChar s.req.s 0).toNat = 48 → 1 < s.req.s_len.toNat →
              u.rsp.o_len.toNat < s.req.s_len.toNat))

/-! ### Ports -/

/-- `30_encoding.md` rule R34 (with the table of rule R36): (a), (b) two requests that agree on the ports
the operation reads, for `a` on the value's own bits and for `s` on the text's own characters, get one
response; (c) a response port the operation does not write is 0, and so are the bits of `r` above the
value. That two evaluations from equal counters have the same draw, and so the same `r` under
`FAIL_LEN`, is the model's choice (notes/assumptions/3.md); the hardware owes no such equality. -/
def Obligations.OnlyListedPortsMatter : Prop :=
  (∀ (i : Instr) (s : State) (q : Request s.params), SeenAlike i s.req q →
    ∃ rsp n, exec i s = .next { s with rsp := rsp, draws := n } ∧
      exec i { s with req := q } = .next { s with req := q, rsp := rsp, draws := n }) ∧
  ∀ (i : Instr) (s t : State), exec i s = .next t →
    (∀ p, p ∉ i.writes → (p ≠ .e_a ∧ p ≠ .e_b ∨ t.rsp.status.toNat ≤ 2) → t.rsp.PortIsZero p) ∧
    (3 ≤ t.rsp.status.toNat → ∀ p, p ∉ [RspPort.status, .e_a, .e_b] → t.rsp.PortIsZero p) ∧
    t.rsp.r.toNat < 2 ^ (8 * t.rsp.r_w.toNat)

/-- `30_encoding.md` rule R43: the width tag of the result, in every case; after a successful REINTERP
`t_w` and `a_w` are equal. -/
def Obligations.ResultWidthTag : Prop :=
  ∀ (i : Instr) (s t : State), exec i s = .next t →
    (t.rsp.r_w =
      if 3 ≤ t.rsp.status.toNat then 0
      else match i with
        | .reinterp => s.req.t_w
        | .reinterpI32 | .reinterpF32 | .assemble | .bitinc | .bitdec | .parsebin => 4
        | _ => 0) ∧
    (i = .reinterp → t.rsp.status = 0 → s.req.t_w = s.req.a_w)

/-- The layout of a string on wires (`30_encoding.md` rule R33): character `i` is
`s[CHAR_W*(i+1)-1 : CHAR_W*i]`, and every wire belongs to one character. -/
def Obligations.StringLayoutOnWires : Prop :=
  ∀ (w n : Nat),
    (∀ (v : Vector (BitVec w) n) (i : Nat) (h : i < n),
      (stringWires v).extractLsb' (w * i) w = v[i]) ∧
    (∀ v : Vector (BitVec w) n, stringFromWires (stringWires v) = v) ∧
    ∀ b : BitVec (n * w), stringWires (stringFromWires b) = b

/-- `20_memory.md` rule R21: bit `b` of storage byte `k` is bit `8*k+b` of the port, and it is the bit
RENDERBIN shows at position `W-1-(8*k+b)` of the full-width string. -/
def Obligations.StorageByteOrder : Prop :=
  ∀ (s : State) (k b : Nat), TagFits s.params s.req.a_w →
    s.req.len.toNat = 8 * s.req.a_w.toNat → k < s.req.a_w.toNat → b < 8 →
    (storageByte s.req.a k).getLsbD b = s.req.a.getLsbD (8 * k + b) ∧
    ∃ t, exec .renderbin s = .next t ∧ t.rsp.status = 0 ∧
      (portChar t.rsp.o (8 * s.req.a_w.toNat - 1 - (8 * k + b))).toNat =
        if (storageByte s.req.a k).getLsbD b then 0x31 else 0x30

/-- `00_scope.md` rule R5, which the spec marks as derived: for requests that are well formed on two
instances and look alike there, the two instances answer alike up to padding. That equal counters give
the two evaluations the same draw, and so the same value under `FAIL_LEN`, is the model's choice
(notes/assumptions/3.md); the hardware owes no such equality. -/
def Obligations.ParametersDoNotMatter : Prop :=
  ∀ (i : Instr) (s s' : State), WellFormed i s.req → WellFormed i s'.req →
    SeenAlike i s.req s'.req → s.draws = s'.draws →
    ∃ t t', exec i s = .next t ∧ exec i s' = .next t' ∧ t.rsp.Agree t'.rsp

/-! ### The machine as a whole -/

/-- `30_encoding.md` rule R30: the response of a step is `exec(request, d)` of the rule's outline, with
the draw of this evaluation. That the draw is `Config.parseLenFailValue` of the counter is the model's
choice (notes/assumptions/3.md). -/
def Obligations.StepEvaluatesTheBlock : Prop :=
  ∀ s : State, ∃ n, step s = .next { s with rsp := evaluate s.req s.draw, draws := n }

/-- `70_reset_and_hazards.md` rule R99, marked there as derived, with `10_state.md` rules R14 and R16:
every operation ends, from every state, and changes neither a request port nor a parameter. -/
def Obligations.EveryOperationEnds : Prop :=
  ∀ (i : Instr) (s : State), ∃ rsp n, exec i s = .next { s with rsp := rsp, draws := n }

/-- Every evaluation spends one draw: one made by a step, and one made when the host drives the request
ports (the model's choice, notes/assumptions/3.md). -/
def Obligations.EachEvaluationSpendsOneDraw : Prop :=
  (∀ s t : State, step s = .next t → t.draws = s.draws + 1) ∧
  ∀ (s : State) (q : Request s.params), (s.present q).draws = s.draws + 1

/-- `20_memory.md` rule R23, "every operation is idempotent": a step on the same request answers the
same on every port, but for `r[31:0]` under `FAIL_LEN`. -/
def Obligations.SameRequestSameResponse : Prop :=
  ∀ s t : State, step s = .next t →
    ∃ (d : Word) (n : Nat), step t = .next { t with
      rsp := if t.rsp.status = 1 then { t.rsp with r := d.setWidth t.params.vw } else t.rsp,
      draws := n }

/-- `60_exceptions.md` rule R89 and `10_state.md` rule R10: no trace of an earlier operation. After any
step, a request `q` is answered as if it had been presented at the start, with the same draw. That equal
counters give the same draw is the model's choice (notes/assumptions/3.md). -/
def Obligations.EarlierOperationsLeaveNoTrace : Prop :=
  ∀ (s : State) (q : Request s.params), ∃ rsp n,
    step s = .next { s with rsp := rsp, draws := n } ∧
    ∃ m, step { s with rsp := rsp, draws := n, req := q } =
        .next { s with req := q, rsp := evaluate q (Config.parseLenFailValue n), draws := m } ∧
      step { s with draws := n, req := q } =
        .next { s with req := q, rsp := evaluate q (Config.parseLenFailValue n), draws := m }

/-- Every step leaves a legal response on the ports, whatever they carried before (so that legality is
an invariant of the step): no status 7, nothing but the error items under an error, no wire above
the value, fields in range, a string of digits with zeros after it. -/
def Obligations.StepLeavesLegalResponse : Prop :=
  ∀ s t : State, step s = .next t → t.rsp.Legal

/-- The response ports are legal at reset, on the instance and with the request ports that are the
model's choice (notes/assumptions/4.md). -/
def Obligations.ResetResponseIsLegal : Prop := State.reset.rsp.Legal

/-- `10_state.md` rule R18: after every step the response ports are a response to the request ports. -/
def Obligations.StepSettles : Prop :=
  ∀ s t : State, step s = .next t → t.Settled

/-- At reset the response ports follow the request ports (`70_reset_and_hazards.md` rule R95); that the
request ports are 0 then is the model's choice (notes/assumptions/4.md). -/
def Obligations.ResetIsSettled : Prop := State.reset.Settled

/-- The constraints of the table of `00_scope.md` rule R4: the parameters of every state obey them, `VW`
is `8 * WMAX`, and the machine starts on the default instance (that it does is the model's choice,
notes/assumptions/4.md). -/
def Obligations.ParametersObeyTable : Prop :=
  (∀ s : State, 4 ≤ s.params.wmax ∧ s.params.wmax ≤ 255 ∧ s.params.vw = 8 * s.params.wmax ∧
    8 * s.params.wmax ≤ s.params.smax ∧ s.params.smax ≤ 65535 ∧
    6 ≤ s.params.charW ∧ s.params.charW ≤ 32) ∧
  State.reset.params.wmax = 8 ∧ State.reset.params.vw = 64 ∧ State.reset.params.smax = 64 ∧
    State.reset.params.charW = 8

/-! ### At every instant -/

/-- `10_state.md` rule R18, "always the function of the request ports": however the host drives the
request ports, they carry what it drives, and the response ports are a response to it at once. -/
def Obligations.ResponseFollowsRequest : Prop :=
  ∀ s : State,
    (∀ q : Request s.params, (s.present q).req = q ∧ (s.present q).Settled) ∧
    (∀ op, (s.select op).req = { s.req with op := op } ∧ (s.select op).Settled) ∧
    s.copyValue.Settled ∧ s.copyFields.Settled ∧ (∀ len, (s.copyText len).Settled) ∧
    ∀ nbits w, (s.withFetchWord nbits w).req = { s.req with op := BitVec.ofNat 4 w } ∧
      (s.withFetchWord nbits w).Settled

/-- `10_state.md` rule R18, at every instant: from any state whose response ports are a response to its
request ports, whatever the host drives and however often the block evaluates, they are so in every
later state, and driving the request that an evaluation ended with shows what the evaluation showed,
up to `r` under `FAIL_LEN`. -/
def Obligations.EveryInstantIsSettled : Prop :=
  (∀ s t : State, s.Settled → Later s t → t.Settled) ∧
  ∀ s t : State, step s = .next t →
    ∃ d : Word, (t.present t.req).rsp =
      if t.rsp.status = 1 then { t.rsp with r := d.setWidth t.params.vw } else t.rsp
end

