-- ==== Sys2Proof/Laws/Decode.lean ====
section
/-! SUPPORT. The codes, one lemma per direction. -/

namespace Sys2Proof

@[simp] theorem decodeOp_encodeOp (i : Instr) : decodeOp (encodeOp i) = i := by
  cases i <;> rfl

@[simp] theorem decodeOp_0 : decodeOp 0#4 = .reinterp := rfl
@[simp] theorem decodeOp_1 : decodeOp 1#4 = .reinterpI32 := rfl
@[simp] theorem decodeOp_2 : decodeOp 2#4 = .reinterpF32 := rfl
@[simp] theorem decodeOp_3 : decodeOp 3#4 = .split := rfl
@[simp] theorem decodeOp_4 : decodeOp 4#4 = .assemble := rfl
@[simp] theorem decodeOp_5 : decodeOp 5#4 = .bitinc := rfl
@[simp] theorem decodeOp_6 : decodeOp 6#4 = .bitdec := rfl
@[simp] theorem decodeOp_7 : decodeOp 7#4 = .parsebin := rfl
@[simp] theorem decodeOp_8 : decodeOp 8#4 = .renderbin := rfl
@[simp] theorem decodeOp_9 : decodeOp 9#4 = .reserved9 := rfl
@[simp] theorem decodeOp_10 : decodeOp 10#4 = .reserved10 := rfl
@[simp] theorem decodeOp_11 : decodeOp 11#4 = .reserved11 := rfl
@[simp] theorem decodeOp_12 : decodeOp 12#4 = .reserved12 := rfl
@[simp] theorem decodeOp_13 : decodeOp 13#4 = .reserved13 := rfl
@[simp] theorem decodeOp_14 : decodeOp 14#4 = .reserved14 := rfl
@[simp] theorem decodeOp_15 : decodeOp 15#4 = .reserved15 := rfl

/-- A proof about every value of the `op` port is sixteen cases. -/
theorem op_cases (op : BitVec 4) : ∃ i : Instr, op = encodeOp i ∧ decodeOp op = i := by
  have h : ∀ op : BitVec 4, encodeOp (decodeOp op) = op := by decide
  exact ⟨_, (h op).symm, rfl⟩

theorem encodeOp_toNat_lt_nine_iff (i : Instr) :
    (encodeOp i).toNat < 9 ↔ i ∉ [Instr.reserved9, .reserved10, .reserved11, .reserved12,
      .reserved13, .reserved14, .reserved15] := by
  cases i <;> decide

theorem decode_byte {b : Byte} (h : b.toNat < 16) (rest : List Byte) :
    decode (b :: rest) = .ok (decodeOp (b.setWidth 4), rest) := by
  simp [decode, Nat.not_le.2 h]

theorem decode_refuses {b : Byte} (h : 16 ≤ b.toNat) (rest : List Byte) :
    decode (b :: rest) = .error (.bitsAboveOp b) := by
  simp [decode, h]

end Sys2Proof
end

