-- ==== Sys2Proof/Laws/State.lean ====
section
/-! SUPPORT. One lemma per field per update of State, and the ports of the shared responses. -/

namespace Sys2Proof.Machine

variable {P : Params}

/-! ### State updates -/

@[simp] theorem answer_params (s : State) (x : Response s.params) :
    (s.answer x).params = s.params := rfl
@[simp] theorem answer_req (s : State) (x : Response s.params) : (s.answer x).req = s.req := rfl
@[simp] theorem answer_rsp (s : State) (x : Response s.params) : (s.answer x).rsp = x := rfl
@[simp] theorem answer_draws (s : State) (x : Response s.params) :
    (s.answer x).draws = s.draws + 1 := rfl

@[simp] theorem present_params (s : State) (q : Request s.params) :
    (s.present q).params = s.params := rfl
@[simp] theorem present_req (s : State) (q : Request s.params) : (s.present q).req = q := rfl
@[simp] theorem present_rsp (s : State) (q : Request s.params) :
    (s.present q).rsp = evaluate q s.draw := rfl
@[simp] theorem present_draws (s : State) (q : Request s.params) :
    (s.present q).draws = s.draws + 1 := rfl

@[simp] theorem copyValue_params (s : State) : s.copyValue.params = s.params := rfl
@[simp] theorem copyValue_a (s : State) : s.copyValue.req.a = s.rsp.r := rfl
@[simp] theorem copyValue_a_w (s : State) : s.copyValue.req.a_w = s.rsp.r_w := rfl
@[simp] theorem copyValue_t_w (s : State) : s.copyValue.req.t_w = s.req.t_w := rfl
@[simp] theorem copyValue_len (s : State) : s.copyValue.req.len = s.req.len := rfl
@[simp] theorem copyValue_draws (s : State) : s.copyValue.draws = s.draws + 1 := rfl

@[simp] theorem copyFields_params (s : State) : s.copyFields.params = s.params := rfl
@[simp] theorem copyFields_f_sign (s : State) : s.copyFields.req.f_sign = s.rsp.r_sign := rfl
@[simp] theorem copyFields_f_exp (s : State) : s.copyFields.req.f_exp = s.rsp.r_exp := rfl
@[simp] theorem copyFields_f_man (s : State) : s.copyFields.req.f_man = s.rsp.r_man := rfl

@[simp] theorem copyText_params (s : State) (l : BitVec 32) : (s.copyText l).params = s.params := rfl
@[simp] theorem copyText_s (s : State) (l : BitVec 32) : (s.copyText l).req.s = s.rsp.o := rfl
@[simp] theorem copyText_s_len (s : State) (l : BitVec 32) :
    (s.copyText l).req.s_len = s.rsp.o_len := rfl
@[simp] theorem copyText_len (s : State) (l : BitVec 32) : (s.copyText l).req.len = l := rfl

@[simp] theorem withFetchWord_params (s : State) (n w : Nat) :
    (s.withFetchWord n w).params = s.params := rfl
@[simp] theorem withFetchWord_op (s : State) (n w : Nat) :
    (s.withFetchWord n w).req.op = BitVec.ofNat 4 w := rfl
@[simp] theorem withFetchWord_draws (s : State) (n w : Nat) :
    (s.withFetchWord n w).draws = s.draws + 1 := rfl

/-! ### The ports of a raised error -/

@[simp] theorem raise_status (e : Status) (x y : Word) : (raise P e x y).status = e.code := rfl
@[simp] theorem raise_r (e : Status) (x y : Word) : (raise P e x y).r = 0 := rfl
@[simp] theorem raise_r_w (e : Status) (x y : Word) : (raise P e x y).r_w = 0 := rfl
@[simp] theorem raise_o_len (e : Status) (x y : Word) : (raise P e x y).o_len = 0 := rfl
@[simp] theorem raise_e_a (e : Status) (x y : Word) : (raise P e x y).e_a = x := rfl
@[simp] theorem raise_e_b (e : Status) (x y : Word) : (raise P e x y).e_b = y := rfl

/-! ### The ports of a response that carries a value -/

@[simp] theorem answerValue_status (w : BitVec 8) (v : BitVec P.vw) :
    (answerValue w v).status = 0 := rfl
@[simp] theorem answerValue_r (w : BitVec 8) (v : BitVec P.vw) : (answerValue w v).r = v := rfl
@[simp] theorem answerValue_r_w (w : BitVec 8) (v : BitVec P.vw) : (answerValue w v).r_w = w := rfl
@[simp] theorem answerPattern_status (p : Word) : (answerPattern P p).status = 0 := rfl
@[simp] theorem answerPattern_r (p : Word) : (answerPattern P p).r = p.setWidth P.vw := rfl
@[simp] theorem answerPattern_r_w (p : Word) : (answerPattern P p).r_w = 4 := rfl

end Sys2Proof.Machine
end

