-- ==== Sys2Proof/Laws/Ops.lean ====
section
/-! SUPPORT. What the shared checks do, said once: each check goes on or answers its own error. Later
proofs cite these lemmas instead of unfolding the checks. -/

namespace Sys2Proof.Machine

variable {P : Params}

/-! ### The conditions as propositions -/

theorem tagFits_iff (q : Request P) : tagFits q = true ↔ TagFits P q.a_w := by
  simp [tagFits]

theorem textFits_iff (q : Request P) : textFits q = true ↔ TextFits P q.s_len := by
  simp [textFits]

theorem tagsDiffer_iff (q : Request P) : tagsDiffer q = true ↔ q.a_w ≠ q.t_w := by
  simp [tagsDiffer, BitVec.toNat_inj]

theorem tagNotFour_iff (q : Request P) : tagNotFour q = true ↔ q.a_w ≠ 4 := by
  simp [tagNotFour, ← BitVec.toNat_inj]

theorem textTooLong_iff (q : Request P) :
    textTooLong q = true ↔ q.len.toInt < (q.s_len.toNat : Int) := by
  unfold textTooLong requestLimit
  exact decide_eq_true_iff

theorem lengthTooLarge_iff (q : Request P) :
    lengthTooLarge q = true ↔ (8 * q.a_w.toNat : Int) < q.len.toInt := by
  unfold lengthTooLarge requestLimit valueBits
  push_cast
  exact decide_eq_true_iff

/-- A width tag of 4 fits every instance (`60_exceptions.md` rule R86). -/
theorem tagFits_four : TagFits P 4 := ⟨by decide, P.wmax_ge⟩

/-! ### The checks -/

theorem withTag_of_fits {q : Request P} (h : TagFits P q.a_w) (k : Response P) :
    withTag q k = k := by
  simp [withTag, (tagFits_iff q).2 h]

theorem withTag_of_not_fits {q : Request P} (h : ¬ TagFits P q.a_w) (k : Response P) :
    withTag q k = raise P .errReq (q.a_w.setWidth 32) (BitVec.ofNat 32 P.wmax) := by
  simp [withTag, mt (tagFits_iff q).1 h]

theorem withText_of_fits {q : Request P} (h : TextFits P q.s_len) (k : Response P) :
    withText q k = k := by
  simp [withText, (textFits_iff q).2 h]

theorem withText_of_not_fits {q : Request P} (h : ¬ TextFits P q.s_len) (k : Response P) :
    withText q k = raise P .errReq (q.s_len.setWidth 32) (BitVec.ofNat 32 P.smax) := by
  simp [withText, mt (textFits_iff q).1 h]

theorem withFour_of_four {q : Request P} (h : q.a_w = 4) (k : Response P) : withFour q k = k := by
  simp [withFour, mt (tagNotFour_iff q).1 (not_not.2 h)]

theorem withFour_of_ne {q : Request P} (h : q.a_w ≠ 4) (k : Response P) :
    withFour q k = raise P .errWidth 4 (q.a_w.setWidth 32) := by
  simp [withFour, (tagNotFour_iff q).2 h]

/-! ### Values on ports -/

theorem vw_ge (P : Params) : 32 ≤ P.vw := by
  have := P.wmax_ge
  unfold Params.vw
  omega

/-- A pattern zero-extended to a value port and read back is the pattern. -/
@[simp] theorem portPattern_setWidth (p : Word) : portPattern (p.setWidth P.vw) = p := by
  have := vw_ge P
  simp only [portPattern, BitVec.setWidth_setWidth_of_le _ this, BitVec.setWidth_eq]

theorem setWidth_vw_toNat (p : Word) : (p.setWidth P.vw).toNat = p.toNat := by
  have h : p.toNat < 2 ^ P.vw := lt_of_lt_of_le p.isLt (Nat.pow_le_pow_right (by decide) (vw_ge P))
  simp [Nat.mod_eq_of_lt h]

theorem portValue_toNat {w : Nat} (h : w ≤ P.wmax) (v : BitVec P.vw) :
    (portValue w v).toNat = v.toNat % 2 ^ (8 * w) := by
  have h' : v.toNat % 2 ^ (8 * w) < 2 ^ P.vw :=
    lt_of_lt_of_le (Nat.mod_lt _ (by positivity))
      (Nat.pow_le_pow_right (by decide) (Nat.mul_le_mul_left 8 h))
  simp [portValue, Nat.mod_eq_of_lt h']

/-! ### What each arm answers -/

theorem exec_reinterp (s : State) :
    exec .reinterp s = .next (s.answer (withTag s.req (reinterpRule s.req))) := rfl
theorem exec_reinterpI32 (s : State) :
    exec .reinterpI32 s = .next (s.answer (withTag s.req (reinterpI32Rule s.req))) := rfl
theorem exec_reinterpF32 (s : State) :
    exec .reinterpF32 s = .next (s.answer (withTag s.req (reinterpF32Rule s.req))) := rfl
theorem exec_split (s : State) :
    exec .split s = .next (s.answer (withTag s.req (splitRule s.req))) := rfl
theorem exec_assemble (s : State) :
    exec .assemble s = .next (s.answer (assembleRule s.req)) := rfl
theorem exec_bitinc (s : State) :
    exec .bitinc s = .next (s.answer (withTag s.req (bitincRule s.req))) := rfl
theorem exec_bitdec (s : State) :
    exec .bitdec s = .next (s.answer (withTag s.req (bitdecRule s.req))) := rfl
theorem exec_parsebin (s : State) :
    exec .parsebin s = .next (s.answer (withText s.req (parsebinRule s.req s.draw))) := rfl
theorem exec_renderbin (s : State) :
    exec .renderbin s = .next (s.answer (withTag s.req (renderbinRule s.req))) := rfl

/-- The seven reserved rows answer alike. -/
theorem exec_reserved {i : Instr} (h : 9 ≤ (encodeOp i).toNat) (s : State) :
    exec i s = .next (s.answer (reservedOp s.req)) := by
  cases i <;> first | rfl | exact absurd h (by decide)

/-! ### Outcomes -/

/-- The response each row of the table answers to request `q` with draw `d`. -/
def responseOf (i : Instr) (q : Request P) (d : Word) : Response P :=
  match i with
  | .reinterp => withTag q (reinterpRule q)
  | .reinterpI32 => withTag q (reinterpI32Rule q)
  | .reinterpF32 => withTag q (reinterpF32Rule q)
  | .split => withTag q (splitRule q)
  | .assemble => assembleRule q
  | .bitinc => withTag q (bitincRule q)
  | .bitdec => withTag q (bitdecRule q)
  | .parsebin => withText q (parsebinRule q d)
  | .renderbin => withTag q (renderbinRule q)
  | .reserved9 | .reserved10 | .reserved11 | .reserved12 | .reserved13 | .reserved14
  | .reserved15 => reservedOp q

/-- Whatever the operation, `exec` answers the state with that response written and one draw spent. -/
theorem exec_eq (i : Instr) (s : State) :
    exec i s = .next (s.answer (responseOf i s.req s.draw)) := by
  cases i <;> rfl

/-- The outline of `30_encoding.md` rule R30 and the selected operation's own meaning answer alike. -/
theorem evaluate_eq_responseOf (q : Request P) (d : Word) :
    evaluate q d = responseOf (decodeOp q.op) q d := by
  obtain ⟨i, hq, hi⟩ := op_cases q.op
  rw [hi]
  by_cases hp : i = .parsebin
  · subst hp
    by_cases hs : TextFits P q.s_len
    · simp [evaluate, hq, encodeOp, responseOf, Instr.reads, withText_of_fits hs, hs]
    · simp [evaluate, hq, encodeOp, responseOf, Instr.reads, withText_of_not_fits hs, hs]
  · by_cases ht : TagFits P q.a_w
    · cases i <;>
        simp_all [evaluate, encodeOp, responseOf, Instr.reads, withTag_of_fits ht, reservedOp]
    · cases i <;>
        simp_all [evaluate, encodeOp, responseOf, Instr.reads, withTag_of_not_fits ht, reservedOp]

theorem eq_answer_of_exec {i : Instr} {s t : State} (h : exec i s = .next t) :
    t = s.answer (responseOf i s.req s.draw) := by
  rw [exec_eq] at h
  exact (Host.Outcome.next.inj h).symm

theorem eq_answer_of_step {s t : State} (h : step s = .next t) :
    t = s.answer (responseOf (decodeOp s.req.op) s.req s.draw) := eq_answer_of_exec h

end Sys2Proof.Machine
end

