-- ==== Sys2Proof/Laws/Ulp.lean ====
section
/-! SUPPORT. The fields, the classes and the step of a BitPattern32 as natural numbers, so that `omega`
closes what follows. -/

namespace Sys2Proof.Machine

/-! ### Fields -/

theorem signField_toNat (p : Word) : (signField p).toNat = p.toNat / 2147483648 := by
  simp [signField, Nat.shiftRight_eq_div_pow]
  omega

theorem exponentField_toNat (p : Word) : (exponentField p).toNat = p.toNat / 8388608 % 256 := by
  simp [exponentField, Nat.shiftRight_eq_div_pow]

theorem mantissaField_toNat (p : Word) : (mantissaField p).toNat = p.toNat % 8388608 := by
  simp [mantissaField]

/-! ### Classes -/

theorem isSpecial_iff_toNat (p : Word) : isSpecial p = true ↔ p.toNat / 8388608 % 256 = 255 := by
  rw [isSpecial, beq_iff_eq, ← BitVec.toNat_inj, exponentField_toNat]
  rfl

theorem isNaN_iff_toNat (p : Word) :
    isNaN p = true ↔ p.toNat / 8388608 % 256 = 255 ∧ p.toNat % 8388608 ≠ 0 := by
  simp only [isNaN, Bool.and_eq_true, bne_iff_ne, beq_iff_eq, ← BitVec.toNat_inj,
    exponentField_toNat, mantissaField_toNat, ne_eq]
  rfl

theorem isPosInf_iff_toNat (p : Word) : isPosInf p = true ↔ p.toNat = 0x7F800000 := by
  simp [isPosInf, ← BitVec.toNat_inj]

theorem isNegInf_iff_toNat (p : Word) : isNegInf p = true ↔ p.toNat = 0xFF800000 := by
  simp [isNegInf, ← BitVec.toNat_inj]

theorem isNegZero_iff_toNat (p : Word) : isNegZero p = true ↔ p.toNat = 0x80000000 := by
  simp [isNegZero, ← BitVec.toNat_inj]

theorem isPosZero_iff_toNat (p : Word) : isPosZero p = true ↔ p.toNat = 0 := by
  simp [isPosZero, ← BitVec.toNat_inj]

theorem isNegative_iff_toNat (p : Word) : isNegative p = true ↔ 2147483648 ≤ p.toNat := by
  rw [isNegative, beq_iff_eq, ← BitVec.toNat_inj, signField_toNat]
  have := p.isLt
  simp
  omega

/-! ### The step -/

theorem stepUp_toNat (p : Word) :
    (stepUp p).toNat =
      if p.toNat / 8388608 % 256 = 255 then
        (if p.toNat = 0xFF800000 then 0xFF7FFFFF else p.toNat)
      else if p.toNat = 0x80000000 then 1
      else if 2147483648 ≤ p.toNat then p.toNat - 1
      else p.toNat + 1 := by
  have hl := p.isLt
  unfold stepUp
  simp only [isSpecial_iff_toNat, isNegInf_iff_toNat, isNegZero_iff_toNat, isNegative_iff_toNat]
  split
  · split <;> rfl
  · split
    · rfl
    · split <;> simp <;> omega

theorem stepDown_toNat (p : Word) :
    (stepDown p).toNat =
      if p.toNat / 8388608 % 256 = 255 then
        (if p.toNat = 0x7F800000 then 0x7F7FFFFF else p.toNat)
      else if p.toNat = 0 then 0x80000001
      else if 2147483648 ≤ p.toNat then p.toNat + 1
      else p.toNat - 1 := by
  have hl := p.isLt
  unfold stepDown
  simp only [isSpecial_iff_toNat, isPosInf_iff_toNat, isPosZero_iff_toNat, isNegative_iff_toNat]
  split
  · split <;> rfl
  · split
    · rfl
    · split <;> simp <;> omega

end Sys2Proof.Machine
end

