-- ==== Sys2Proof/Laws/Numeric.lean ====
section
/-! SUPPORT. The numeric order of patterns is the order of their sign-and-magnitude keys
(`42_ulpstepper.md` rule R67): values become integers, and `omega` closes what follows. -/

namespace Sys2Proof.Machine

/-- The magnitude of a finite pattern in units of 2^-149. -/
def units (e m : Nat) : Nat := if e = 0 then m else (8388608 + m) * 2 ^ (e - 1)

theorem finiteMagnitude_eq_units (e : BitVec 8) (m : BitVec 23) :
    finiteMagnitude e m = (units e.toNat m.toNat : ℚ) * (2 : ℚ) ^ (-149 : ℤ) := by
  unfold finiteMagnitude units
  by_cases h : e = 0
  · subst h
    simp
    norm_num
    try ring
  · have h' : e.toNat ≠ 0 := fun hc => h (BitVec.eq_of_toNat_eq (by simpa using hc))
    have hz : (e.toNat : ℤ) - 127 = ((e.toNat - 1 : ℕ) : ℤ) + (-126) := by omega
    rw [if_neg h, if_neg h']
    push_cast
    rw [hz, zpow_add₀ (by norm_num), zpow_natCast]
    norm_num
    ring

theorem units_lower {e m : Nat} (he : e ≠ 0) : 2 ^ (22 + e) ≤ units e m := by
  obtain ⟨k, rfl⟩ : ∃ k, e = k + 1 := ⟨e - 1, by omega⟩
  rw [units, if_neg he, Nat.add_sub_cancel]
  calc 2 ^ (22 + (k + 1)) = 8388608 * 2 ^ k := by ring
    _ ≤ (8388608 + m) * 2 ^ k := Nat.mul_le_mul_right _ (by omega)

theorem units_upper {e m : Nat} (hm : m < 8388608) : units e m < 2 ^ (23 + e) := by
  unfold units
  split
  · subst e
    simpa using hm
  · obtain ⟨k, rfl⟩ : ∃ k, e = k + 1 := ⟨e - 1, by omega⟩
    have : 0 < 2 ^ k := by positivity
    calc (8388608 + m) * 2 ^ (k + 1 - 1) < (8388608 + 8388608) * 2 ^ k :=
          Nat.mul_lt_mul_of_pos_right (by omega) this
      _ = 2 ^ (23 + (k + 1)) := by ring

/-- A greater exponent, or the same and a greater mantissa, is a greater magnitude. -/
theorem units_lt {e m e' m' : Nat} (hm : m < 8388608) (hm' : m' < 8388608)
    (h : e * 8388608 + m < e' * 8388608 + m') : units e m < units e' m' := by
  rcases Nat.lt_or_ge e e' with he | he
  · calc units e m < 2 ^ (23 + e) := units_upper hm
      _ ≤ 2 ^ (22 + e') := Nat.pow_le_pow_right (by decide) (by omega)
      _ ≤ units e' m' := units_lower (by omega)
  · obtain rfl : e = e' := by omega
    unfold units
    split
    · omega
    · exact Nat.mul_lt_mul_of_pos_right (by omega) (by positivity)

/-- The sign-and-magnitude key of a pattern: +0 and -0 have the key 0. -/
def key (p : Word) : Int :=
  if 2147483648 ≤ p.toNat then -((p.toNat : Int) - 2147483648) else p.toNat

/-- The value of a finite pattern in units of 2^-149. -/
def unitValue (p : Word) : Int :=
  if 2147483648 ≤ p.toNat then
    -(units (p.toNat / 8388608 % 256) (p.toNat % 8388608) : Int)
  else units (p.toNat / 8388608 % 256) (p.toNat % 8388608)

theorem unitValue_lt {p q : Word} (h : key p < key q) : unitValue p < unitValue q := by
  have hp := p.isLt
  have hq := q.isLt
  have m0 : ∀ e m, m < 8388608 → 0 < e * 8388608 + m → 0 < units e m := by
    intro e m hm h
    have := units_lt (e := 0) (m := 0) (by decide) hm (by simpa using h)
    simpa [units] using this
  unfold key at h
  unfold unitValue
  split_ifs at h ⊢ with h1 h2 h2
  · have := units_lt (e := q.toNat / 8388608 % 256) (m := q.toNat % 8388608)
      (e' := p.toNat / 8388608 % 256) (m' := p.toNat % 8388608) (by omega) (by omega) (by omega)
    omega
  · by_cases hz : p.toNat = 2147483648
    · have := m0 (q.toNat / 8388608 % 256) (q.toNat % 8388608) (by omega) (by omega)
      omega
    · have := m0 (p.toNat / 8388608 % 256) (p.toNat % 8388608) (by omega) (by omega)
      omega
  · omega
  · have := units_lt (e := p.toNat / 8388608 % 256) (m := p.toNat % 8388608)
      (e' := q.toNat / 8388608 % 256) (m' := q.toNat % 8388608) (by omega) (by omega) (by omega)
    omega

theorem unitValue_eq {p q : Word} (h : key p = key q) : unitValue p = unitValue q := by
  have hp := p.isLt
  have hq := q.isLt
  unfold key at h
  by_cases e : p = q
  · rw [e]
  · have e' : p.toNat ≠ q.toNat := fun h => e (BitVec.eq_of_toNat_eq h)
    have hz : (p.toNat = 0 ∧ q.toNat = 2147483648) ∨ (q.toNat = 0 ∧ p.toNat = 2147483648) := by
      split_ifs at h <;> omega
    rcases hz with ⟨h1, h2⟩ | ⟨h1, h2⟩ <;> simp [unitValue, h1, h2, units]

theorem unitValue_lt_iff (p q : Word) : unitValue p < unitValue q ↔ key p < key q := by
  refine ⟨fun h => ?_, unitValue_lt⟩
  by_contra hc
  rcases lt_or_eq_of_le (not_lt.1 hc) with h' | h'
  · have := unitValue_lt h'
    omega
  · have := unitValue_eq h'
    omega

/-- The numeric value of a pattern by its fields as numbers. -/
theorem numericValue_eq (p : Word) :
    numericValue p =
      if p.toNat / 8388608 % 256 = 255 then
        (if p.toNat % 8388608 = 0 then
          some (if 2147483648 ≤ p.toNat then .negInf else .posInf) else none)
      else some (.fin ((unitValue p : ℚ) * 2 ^ (-149 : ℤ))) := by
  unfold numericValue
  by_cases hs : isSpecial p = true
  · have hs' := (isSpecial_iff_toNat p).1 hs
    simp only [isNaN_iff_toNat, hs, hs', isNegative_iff_toNat]
    by_cases hm : p.toNat % 8388608 = 0 <;> simp [hm]
  · have hs' := mt (isSpecial_iff_toNat p).2 hs
    have hn : ¬ isNaN p = true := by
      rw [isNaN_iff_toNat]
      tauto
    rw [if_neg hn, if_neg hs, if_neg hs']
    simp only [isNegative_iff_toNat, finiteMagnitude_eq_units, exponentField_toNat,
      mantissaField_toNat, unitValue]
    split <;> simp

/-- The numeric order is the order of the keys. -/
theorem less_iff_key {p q : Word} {x y : ExtVal} (hx : numericValue p = some x)
    (hy : numericValue q = some y) : x.Less y ↔ key p < key q := by
  have hp := p.isLt
  have hq := q.isLt
  have pos : (0 : ℚ) < 2 ^ (-149 : ℤ) := by positivity
  have hf : ∀ a b : Int, ((a : ℚ) * 2 ^ (-149 : ℤ) < (b : ℚ) * 2 ^ (-149 : ℤ)) ↔ a < b := by
    intro a b
    rw [mul_lt_mul_iff_left₀ pos]
    exact Int.cast_lt
  rw [numericValue_eq] at hx hy
  split_ifs at hx hy <;> simp only [Option.some.injEq] at hx hy <;> subst hx <;> subst hy <;>
    simp only [ExtVal.Less, key, true_iff, false_iff, hf, unitValue_lt_iff] <;>
    (try split_ifs) <;> first | trivial | contradiction | omega

/-- Equal keys, equal values. -/
theorem value_eq_of_key {p q : Word} {x y : ExtVal} (hx : numericValue p = some x)
    (hy : numericValue q = some y) (h : key p = key q) : x = y := by
  have hp := p.isLt
  have hq := q.isLt
  have hu := unitValue_eq h
  rw [numericValue_eq] at hx hy
  unfold key at h
  split_ifs at hx hy h <;> simp only [Option.some.injEq] at hx hy <;> subst hx <;> subst hy <;>
    first | rfl | contradiction | (exfalso; omega) | rw [hu]

end Sys2Proof.Machine
end

