-- ==== Sys2Proof/Laws/PerInstr.lean ====
section
/-! SUPPORT. Facts about every row of the operation table as syntax.

`PortTable`: an operation that reads the value port reads its width tag and the other way round
(`30_encoding.md` rule R36, "the same seven" of rule R31); every operation reads `op` and writes
`status`; one that writes `r` writes `r_w`; and its byte is its code with the upper bits 0. -/

namespace Sys2Proof.Laws.PortTable

def Statement (i : Instr) : Prop :=
  (ReqPort.a ∈ i.reads ↔ ReqPort.a_w ∈ i.reads) ∧ ReqPort.op ∈ i.reads ∧
    RspPort.status ∈ i.writes ∧ (RspPort.r ∈ i.writes ↔ RspPort.r_w ∈ i.writes) ∧
    (encode i).length = 1 ∧ decodeTableWord 8 (encodeOp i).toNat = some i

theorem reinterp : Statement .reinterp := by unfold Statement; decide
theorem reinterpI32 : Statement .reinterpI32 := by unfold Statement; decide
theorem reinterpF32 : Statement .reinterpF32 := by unfold Statement; decide
theorem split : Statement .split := by unfold Statement; decide
theorem assemble : Statement .assemble := by unfold Statement; decide
theorem bitinc : Statement .bitinc := by unfold Statement; decide
theorem bitdec : Statement .bitdec := by unfold Statement; decide
theorem parsebin : Statement .parsebin := by unfold Statement; decide
theorem renderbin : Statement .renderbin := by unfold Statement; decide
theorem reserved9 : Statement .reserved9 := by unfold Statement; decide
theorem reserved10 : Statement .reserved10 := by unfold Statement; decide
theorem reserved11 : Statement .reserved11 := by unfold Statement; decide
theorem reserved12 : Statement .reserved12 := by unfold Statement; decide
theorem reserved13 : Statement .reserved13 := by unfold Statement; decide
theorem reserved14 : Statement .reserved14 := by unfold Statement; decide
theorem reserved15 : Statement .reserved15 := by unfold Statement; decide

end Sys2Proof.Laws.PortTable
end

