-- ==== Sys2Proof/Laws/Strings.lean ====
section
/-! SUPPORT. Strings: reading a slot, the scan of PARSEBIN, the automatic length and the string of
RENDERBIN. -/

namespace Sys2Proof.Machine

variable {P : Params}

/-! ### Slots -/

theorem getElem_stringOf {w n : Nat} (f : Nat → BitVec w) (i : Nat) (h : i < n) :
    (stringOf n f)[i] = f i := by
  simp [stringOf]

theorem portChar_stringOf (f : Nat → BitVec P.charW) (i : Nat) :
    portChar (stringOf P.smax f) i = if i < P.smax then f i else 0 := by
  by_cases h : i < P.smax
  · simp [portChar, h, getElem_stringOf]
  · simp [portChar, h]

theorem portChar_of_le (v : Vector (BitVec P.charW) P.smax) {i : Nat} (h : P.smax ≤ i) :
    portChar v i = 0 := by
  simp [portChar, h]

theorem portChar_zero (i : Nat) : portChar (Vector.replicate P.smax 0#P.charW) i = 0 := by
  by_cases h : i < P.smax <;> simp [portChar, h]

@[simp] theorem length_requestText (q : Request P) : (requestText q).length = q.s_len.toNat := by
  simp [requestText]

theorem forall_mem_requestText (q : Request P) (R : BitVec P.charW → Prop) :
    (∀ c ∈ requestText q, R c) ↔ ∀ k < q.s_len.toNat, R (portChar q.s k) := by
  simp [requestText]

/-! ### The scan -/

theorem isDigit_iff {w : Nat} (c : BitVec w) : isDigit c = true ↔ c.toNat = 48 ∨ c.toNat = 49 := by
  simp [isDigit]

/-- A digit's lowest bit is its value. -/
theorem toNat_digitBit {w : Nat} {c : BitVec w} (h : c.toNat = 48 ∨ c.toNat = 49) :
    ((BitVec.ofBool (c.getLsbD 0)).setWidth 32).toNat = c.toNat - 48 := by
  rcases h with h | h <;> simp [BitVec.getLsbD, h]

/-- One digit doubles the accumulator and adds the digit, modulo 2^32. -/
theorem pushDigit_toNat {w : Nat} (acc : Word) {c : BitVec w} (h : c.toNat = 48 ∨ c.toNat = 49) :
    (pushDigit acc c).toNat = (2 * acc.toNat + (c.toNat - 48)) % 2 ^ 32 := by
  have hd : c.toNat - 48 < 2 := by omega
  have he : (2 * acc.toNat) % 2 ^ 32 = 2 * (acc.toNat % 2 ^ 31) := by omega
  rw [pushDigit, BitVec.toNat_or, toNat_digitBit h, BitVec.toNat_shiftLeft, Nat.shiftLeft_eq,
    Nat.mul_comm, pow_one, he]
  have := Nat.two_pow_add_eq_or_of_lt (i := 1) (by omega : c.toNat - 48 < 2 ^ 1)
    (acc.toNat % 2 ^ 31)
  simp only [pow_one] at this
  rw [← this]
  omega

/-- The scan of a text of digits ends with its base-2 value below the accumulator's bits. -/
theorem scan_digits {w : Nat} (cs : List (BitVec w)) (h : ∀ c ∈ cs, c.toNat = 48 ∨ c.toNat = 49)
    (acc : Word) :
    scan acc cs = .value (BitVec.ofNat 32 (acc.toNat * 2 ^ cs.length + digitsValue cs)) := by
  induction cs generalizing acc with
  | nil => simp [scan, digitsValue]
  | cons c cs ih =>
    have hc := h c (by simp)
    rw [scan, if_pos ((isDigit_iff c).2 hc), ih (fun d hd => h d (by simp [hd]))]
    congr 1
    apply BitVec.eq_of_toNat_eq
    rw [pushDigit_toNat acc hc, BitVec.toNat_ofNat, BitVec.toNat_ofNat, digitsValue,
      List.length_cons, pow_succ, Nat.add_mod, Nat.mul_mod, Nat.mod_mod, ← Nat.mul_mod,
      ← Nat.add_mod]
    congr 1
    ring

/-- The scan stops at the first character that is no digit and keeps nothing of the digits before. -/
theorem scan_offender {w : Nat} (pre : List (BitVec w)) (c : BitVec w) (post : List (BitVec w))
    (h : ∀ d ∈ pre, d.toNat = 48 ∨ d.toNat = 49) (hc : ¬ (c.toNat = 48 ∨ c.toNat = 49))
    (acc : Word) : scan acc (pre ++ c :: post) = .offender c := by
  induction pre generalizing acc with
  | nil => simp only [List.nil_append, scan, if_neg (mt (isDigit_iff c).1 hc)]
  | cons d pre ih =>
    rw [List.cons_append, scan, if_pos ((isDigit_iff d).2 (h d (by simp)))]
    exact ih (fun e he => h e (by simp [he])) _

/-- A scan ends with a value exactly when every character is a digit. -/
theorem scan_cases {w : Nat} (cs : List (BitVec w)) (acc : Word) :
    (∃ a, scan acc cs = .value a) ∧ (∀ c ∈ cs, c.toNat = 48 ∨ c.toNat = 49) ∨
      (∃ c, scan acc cs = .offender c) ∧ ∃ c ∈ cs, ¬ (c.toNat = 48 ∨ c.toNat = 49) := by
  induction cs generalizing acc with
  | nil => exact .inl ⟨⟨_, rfl⟩, by simp⟩
  | cons c cs ih =>
    by_cases hc : c.toNat = 48 ∨ c.toNat = 49
    · rw [scan, if_pos ((isDigit_iff c).2 hc)]
      rcases ih (pushDigit acc c) with ⟨h1, h2⟩ | ⟨h1, d, h2, h3⟩
      · exact .inl ⟨h1, by simpa [hc] using h2⟩
      · exact .inr ⟨h1, d, by simp [h2], h3⟩
    · rw [scan, if_neg (mt (isDigit_iff c).1 hc)]
      exact .inr ⟨⟨_, rfl⟩, c, by simp, hc⟩

/-! ### The automatic length -/

/-- The automatic length from `k`: at least 1, at most `k`, every bit from it up to `k` is 0, and the
bit below it is 1 unless the length is 1. -/
theorem autoLength_spec {n : Nat} (v : BitVec n) {k : Nat} (hk : 1 ≤ k) :
    1 ≤ autoLength v k ∧ autoLength v k ≤ k ∧
      (∀ i, autoLength v k ≤ i → i < k → v.getLsbD i = false) ∧
      (autoLength v k ≠ 1 → v.getLsbD (autoLength v k - 1) = true) := by
  induction k with
  | zero => omega
  | succ k ih =>
    match k, ih with
    | 0, _ => exact ⟨le_refl _, le_refl _, fun i h h' => absurd h' (by simp [autoLength] at h; omega),
        fun h => absurd rfl h⟩
    | k + 1, ih =>
      obtain ⟨h1, h2, h3, h4⟩ := ih (by omega)
      by_cases hb : v.getLsbD (k + 1) = true
      · simp only [autoLength, if_pos hb]
        exact ⟨by omega, le_refl _, fun i h h' => by omega, fun _ => by simpa using hb⟩
      · simp only [autoLength, if_neg hb]
        refine ⟨h1, by omega, fun i h h' => ?_, h4⟩
        rcases Nat.lt_succ_iff_lt_or_eq.1 h' with h'' | rfl
        · exact h3 i h h''
        · simpa using hb

/-! ### The string of RENDERBIN -/

theorem bitChar_toNat (b : Bool) :
    (bitChar P.charW b).toNat = if b then 49 else 48 := by
  have h6 := P.charW_ge
  have h64 : 2 ^ 6 ≤ 2 ^ P.charW := Nat.pow_le_pow_right (by decide) h6
  cases b
  · simp [bitChar, Nat.mod_eq_of_lt (by omega : 48 < 2 ^ P.charW)]
  · simp [bitChar, Nat.mod_eq_of_lt (by omega : 48 < 2 ^ P.charW),
      Nat.mod_eq_of_lt (by omega : 1 < 2 ^ P.charW), Nat.mod_eq_of_lt (by omega : 49 < 2 ^ P.charW)]

theorem portChar_renderString (v : BitVec P.vw) {k : Nat} (hk : k ≤ P.smax) (j : Nat) :
    portChar (renderString P v k) j =
      if j < k then bitChar P.charW (v.getLsbD (k - 1 - j)) else 0 := by
  rw [renderString, portChar_stringOf]
  by_cases h : j < k
  · simp [h, lt_of_lt_of_le h hk]
  · simp [h]

theorem renderLength_explicit {q : Request P} (h : 0 < q.len.toInt) :
    renderLength q = q.len.toInt.toNat := by
  simp [renderLength, not_le.2 h]

theorem renderLength_automatic {q : Request P} (h : q.len.toInt ≤ 0) :
    renderLength q = autoLength q.a (8 * q.a_w.toNat) := by
  simp [renderLength, h]

/-- The output length is 1 to `8 * a_w` on a well-formed request that is not out of range. -/
theorem renderLength_bounds {q : Request P} (ht : TagFits P q.a_w)
    (hr : q.len.toInt ≤ 8 * q.a_w.toNat) :
    1 ≤ renderLength q ∧ renderLength q ≤ 8 * q.a_w.toNat ∧ renderLength q ≤ P.smax ∧
      renderLength q < 2 ^ 16 := by
  have hs := P.smax_ge
  have hs' := P.smax_le
  obtain ⟨h1, h2⟩ := ht
  have hk : 1 ≤ renderLength q ∧ renderLength q ≤ 8 * q.a_w.toNat := by
    unfold renderLength requestLimit valueBits
    split
    · obtain ⟨a, b, -⟩ := autoLength_spec q.a (by omega : 1 ≤ 8 * q.a_w.toNat)
      exact ⟨a, b⟩
    · omega
  omega

/-! ### Base-2 values -/

theorem digitsValue_lt {w : Nat} (cs : List (BitVec w))
    (h : ∀ c ∈ cs, c.toNat = 48 ∨ c.toNat = 49) : digitsValue cs < 2 ^ cs.length := by
  induction cs with
  | nil => simp [digitsValue]
  | cons c cs ih =>
    have hcs := ih fun d hd => h d (by simp [hd])
    have hc := h c (by simp)
    have hlen : 2 ^ (c :: cs).length = 2 * 2 ^ cs.length := by
      rw [List.length_cons, pow_succ]
      ring
    have hbit : c.toNat - 48 ≤ 1 := by omega
    rw [digitsValue, hlen]
    nlinarith

/-- Bit `i` of the value, counted from the right, is the digit counted from the left. -/
theorem testBit_digitsValue {w : Nat} (cs : List (BitVec w))
    (h : ∀ c ∈ cs, c.toNat = 48 ∨ c.toNat = 49) (j : Nat) (hj : j < cs.length) :
    (digitsValue cs).testBit (cs.length - 1 - j) = (cs[j].toNat == 49) := by
  induction cs generalizing j with
  | nil => simp at hj
  | cons c cs ih =>
    have hcs : ∀ c ∈ cs, c.toNat = 48 ∨ c.toNat = 49 := fun d hd => h d (by simp [hd])
    have hlt := digitsValue_lt cs hcs
    rw [digitsValue, mul_comm, List.length_cons, Nat.add_sub_cancel]
    cases j with
    | zero =>
      rw [Nat.sub_zero, Nat.testBit_two_pow_mul_add _ hlt, if_neg (by omega)]
      rcases h c (by simp) with hc | hc <;> simp [hc]
    | succ j =>
      simp at hj
      rw [Nat.testBit_two_pow_mul_add _ hlt, if_pos (by omega),
        show cs.length - (j + 1) = cs.length - 1 - j by omega, ih hcs j hj]
      simp

/-- The characters RENDERBIN emits for the low `k` bits denote those bits. -/
theorem digitsValue_bitChars {n : Nat} (v : BitVec n) (k : Nat) :
    digitsValue ((List.range k).map fun j => bitChar P.charW (v.getLsbD (k - 1 - j))) =
      v.toNat % 2 ^ k := by
  induction k with
  | zero => simp [digitsValue, Nat.mod_one]
  | succ k ih =>
    have e : (List.range k).map
        ((fun j => bitChar P.charW (v.getLsbD (k + 1 - 1 - j))) ∘ Nat.succ) =
        (List.range k).map fun j => bitChar P.charW (v.getLsbD (k - 1 - j)) := by
      apply List.map_congr_left
      intro j hj
      simp only [Function.comp]
      congr 2
      simp at hj
      omega
    rw [List.range_succ_eq_map, List.map_cons, List.map_map, e, digitsValue, ih, bitChar_toNat,
      List.length_map, List.length_range, Nat.mod_pow_succ]
    simp only [BitVec.getLsbD, Nat.add_sub_cancel, Nat.sub_zero, Nat.testBit_eq_decide_div_mod_eq,
      decide_eq_true_eq]
    rcases Nat.mod_two_eq_zero_or_one (v.toNat / 2 ^ k) with h | h <;> simp [h]
    omega

/-- The text on a request port that carries a rendered string. -/
theorem requestText_renderString (v : BitVec P.vw) {k : Nat} (hk : k ≤ P.smax) (hk' : k < 2 ^ 16)
    (q : Request P) (hs : q.s = renderString P v k) (hn : q.s_len = BitVec.ofNat 16 k) :
    requestText q = (List.range k).map fun j => bitChar P.charW (v.getLsbD (k - 1 - j)) := by
  unfold requestText
  rw [hn, hs, BitVec.toNat_ofNat, Nat.mod_eq_of_lt hk']
  apply List.map_congr_left
  intro j hj
  rw [portChar_renderString v hk, if_pos (List.mem_range.1 hj)]

/-- A text split at character `j`. -/
theorem requestText_split (q : Request P) {j : Nat} (hj : j < q.s_len.toNat) :
    requestText q = (List.range j).map (portChar q.s) ++ portChar q.s j ::
      (List.range' (j + 1) (q.s_len.toNat - j - 1)).map (portChar q.s) := by
  have h : List.range q.s_len.toNat =
      List.range j ++ j :: List.range' (j + 1) (q.s_len.toNat - j - 1) := by
    rw [List.range_eq_range', List.range_eq_range', ← List.range'_succ]
    have := List.range'_append (s := 0) (m := j) (n := q.s_len.toNat - j - 1 + 1) (step := 1)
    simp at this
    rw [this]
    congr 1
    omega
  rw [requestText, h]
  simp

/-! ### Characters on wires -/

/-- Wire `x` of packed characters is bit `x mod w` of character `x / w`. -/
theorem getLsbD_packChars {w : Nat} (hw : 0 < w) (m : Nat) (cs : List (BitVec w)) (x : Nat)
    (hx : x < m) :
    (packChars m cs).getLsbD x =
      if h : x / w < cs.length then cs[x / w].getLsbD (x % w) else false := by
  induction cs generalizing x with
  | nil => simp [packChars]
  | cons c cs ih =>
    simp only [packChars, BitVec.getLsbD_or, BitVec.getLsbD_setWidth, BitVec.getLsbD_shiftLeft, hx]
    by_cases h : x < w
    · simp [h, Nat.div_eq_of_lt h, Nat.mod_eq_of_lt h]
    · have hd : x / w = (x - w) / w + 1 := by
        rw [← Nat.add_div_right _ hw]
        congr 1
        omega
      have hm : x % w = (x - w) % w := by rw [Nat.mod_eq_sub_mod (by omega)]
      have hc : c.getLsbD x = false := BitVec.getLsbD_of_ge _ _ (by omega)
      rw [ih (x - w) (by omega)]
      simp [h, hd, hm, hc]

end Sys2Proof.Machine
end

