-- ==== Sys2Proof/Laws/Shape.lean ====
section
/-! SUPPORT. Said once: every response of the block has one of five shapes. A property of all responses
is proved by five small cases. -/

namespace Sys2Proof.Machine

variable {P : Params}

/-- The five shapes of a response. -/
inductive Response.Shape : Response P → Prop where
  | raised (e : Status) (x y : Word) (he : e.isErr = true) : Shape (raise P e x y)
  | value (w : BitVec 8) (v : BitVec P.vw) (hw : 1 ≤ w.toNat ∧ w.toNat ≤ P.wmax) :
      Shape (answerValue w (portValue w.toNat v))
  | pattern (e : Status) (p : Word) (he : e.isErr = false) :
      Shape { answerPattern P p with status := e.code }
  | fields (p : Word) : Shape (answerFields P p)
  | string (v : BitVec P.vw) (k : Nat) (hk : 1 ≤ k ∧ k ≤ P.smax ∧ k < 2 ^ 16) :
      Shape (answerString P v k)

theorem shape_answerPattern (p : Word) : (answerPattern P p).Shape := .pattern .ok p rfl

theorem shape_withTag {q : Request P} {k : Response P} (h : TagFits P q.a_w → k.Shape) :
    (withTag q k).Shape := by
  by_cases ht : TagFits P q.a_w
  · rw [withTag_of_fits ht]
    exact h ht
  · rw [withTag_of_not_fits ht]
    exact .raised _ _ _ rfl

theorem shape_withText {q : Request P} {k : Response P} (h : k.Shape) : (withText q k).Shape := by
  by_cases ht : TextFits P q.s_len
  · rwa [withText_of_fits ht]
  · rw [withText_of_not_fits ht]
    exact .raised _ _ _ rfl

theorem shape_withFour {q : Request P} {k : Response P} (h : k.Shape) : (withFour q k).Shape := by
  by_cases ht : q.a_w = 4
  · rwa [withFour_of_four ht]
  · rw [withFour_of_ne ht]
    exact .raised _ _ _ rfl

theorem shape_reinterpRule {q : Request P} (ht : TagFits P q.a_w) : (reinterpRule q).Shape := by
  unfold reinterpRule
  split
  · exact .raised _ _ _ rfl
  · rename_i h
    have h' := not_not.1 (mt (tagsDiffer_iff q).2 h)
    rw [h'] at ht ⊢
    exact .value _ _ ht

theorem shape_parsebinRule (q : Request P) (d : Word) : (parsebinRule q d).Shape := by
  unfold parsebinRule
  split
  · exact .pattern .failLen d rfl
  · cases scan 0#32 (requestText q) with
    | value acc => exact shape_answerPattern acc
    | offender c => exact .pattern .failDigit _ rfl

theorem shape_renderbinRule {q : Request P} (ht : TagFits P q.a_w) : (renderbinRule q).Shape := by
  unfold renderbinRule
  split
  · exact .raised _ _ _ rfl
  · rename_i h
    obtain ⟨h1, -, h3, h4⟩ :=
      renderLength_bounds ht (not_lt.1 (mt (lengthTooLarge_iff q).2 h))
    exact .string _ _ ⟨h1, h3, h4⟩

/-- Every response has one of the five shapes. -/
theorem responseOf_shape (i : Instr) (q : Request P) (d : Word) : (responseOf i q d).Shape := by
  cases i
  case reinterp => exact shape_withTag shape_reinterpRule
  case reinterpI32 => exact shape_withTag fun _ => shape_withFour (shape_answerPattern _)
  case reinterpF32 => exact shape_withTag fun _ => shape_withFour (shape_answerPattern _)
  case split => exact shape_withTag fun _ => shape_withFour (.fields _)
  case assemble => exact shape_answerPattern _
  case bitinc => exact shape_withTag fun _ => shape_withFour (shape_answerPattern _)
  case bitdec => exact shape_withTag fun _ => shape_withFour (shape_answerPattern _)
  case parsebin => exact shape_withText (shape_parsebinRule q d)
  case renderbin => exact shape_withTag shape_renderbinRule
  all_goals exact .raised _ _ _ rfl

/-! ### The draw -/

/-- The draw reaches one place only: `r[31:0]` under `FAIL_LEN` (`43_binarystringcodec.md` rule R72). -/
theorem responseOf_draw (i : Instr) (q : Request P) (d d' : Word) :
    responseOf i q d' =
      if (responseOf i q d).status = 1 then { responseOf i q d with r := d'.setWidth P.vw }
      else responseOf i q d := by
  have hi : i = .parsebin ∨ i ≠ .parsebin := by cases i <;> simp
  rcases hi with rfl | hi
  · simp only [responseOf]
    by_cases ht : TextFits P q.s_len
    · simp only [withText_of_fits ht, parsebinRule]
      split
      · exact (if_pos rfl).symm
      · rw [if_neg]
        cases scan 0#32 (requestText q) <;> simp [scanResponse, Status.code]
    · simp [withText_of_not_fits ht, Status.code]
  · have h1 : responseOf i q d' = responseOf i q d := by
      cases i <;> first | rfl | exact absurd rfl hi
    have ha : ∀ k : Response P, k.status ≠ 1 → (withTag q k).status ≠ 1 := by
      intro k hk
      unfold withTag
      split
      · exact hk
      · simp [Status.code]
    have hb : ∀ k : Response P, k.status ≠ 1 → (withFour q k).status ≠ 1 := by
      intro k hk
      unfold withFour
      split
      · simp [Status.code]
      · exact hk
    rw [h1, if_neg]
    cases i
    case parsebin => exact absurd rfl hi
    case reinterp => exact ha _ (by unfold reinterpRule; split <;> simp [Status.code])
    case renderbin =>
      exact ha _ (by unfold renderbinRule; split <;> simp [Status.code, answerString])
    case reinterpI32 => exact ha _ (hb _ (by simp))
    case reinterpF32 => exact ha _ (hb _ (by simp))
    case split => exact ha _ (hb _ (by simp [answerFields, Status.code]))
    case bitinc => exact ha _ (hb _ (by simp))
    case bitdec => exact ha _ (hb _ (by simp))
    case assemble => simp [responseOf, assembleRule]
    all_goals simp [responseOf, reservedOp, Status.code]

end Sys2Proof.Machine
end

