-- ==== Sys2Proof/Tests/Slice0.lean ====
section
/-! SUPPORT. Tests of one step each, with the expected values of `95_test_vectors.md` (the id stands in
each test's comment), and one witness of the hypotheses of each statement. -/

namespace Sys2Proof.Tests.Slice0

open Sys2Proof Sys2Proof.Machine

/-- The default instance, the host having driven the request of a call. -/
def asking (c : Call Params.standard) : State := State.reset.present (encodeCall c)

/-- A text on the default string port. -/
def text (cs : List (BitVec 8)) : Vector (BitVec Params.standard.charW) Params.standard.smax :=
  stringOf 64 fun i => cs.getD i 0

/-- `status`, `r`, `r_w`, `e_a`, `e_b` of an outcome. -/
def answered : Host.Outcome State Fault Refusal → List Nat
  | .next t =>
    [t.rsp.status.toNat, t.rsp.r.toNat, t.rsp.r_w.toNat, t.rsp.e_a.toNat, t.rsp.e_b.toNat]
  | _ => []

/-- `status`, `r_sign`, `r_exp`, `r_man`, `r_w`, `e_a`, `e_b` of an outcome. -/
def fields : Host.Outcome State Fault Refusal → List Nat
  | .next t =>
    [t.rsp.status.toNat, t.rsp.r_sign.toNat, t.rsp.r_exp.toNat, t.rsp.r_man.toNat, t.rsp.r_w.toNat,
      t.rsp.e_a.toNat, t.rsp.e_b.toNat]
  | _ => []

/-- `status`, `o_len`, and the characters below position `n` of an outcome. -/
def shown (n : Nat) : Host.Outcome State Fault Refusal → List Nat
  | .next t =>
    t.rsp.status.toNat :: t.rsp.o_len.toNat :: (t.rsp.o.toList.take n).map BitVec.toNat
  | _ => []

/-! ### Decoding: the words of `30_encoding.md` rule R35, bit 3 first -/

theorem test_decode_reinterp : decode [0b00000000#8] = .ok (.reinterp, []) := by rfl
theorem test_decode_reinterpI32 : decode [0b00000001#8] = .ok (.reinterpI32, []) := by rfl
theorem test_decode_reinterpF32 : decode [0b00000010#8] = .ok (.reinterpF32, []) := by rfl
theorem test_decode_split : decode [0b00000011#8] = .ok (.split, []) := by rfl
theorem test_decode_assemble : decode [0b00000100#8] = .ok (.assemble, []) := by rfl
theorem test_decode_bitinc : decode [0b00000101#8] = .ok (.bitinc, []) := by rfl
theorem test_decode_bitdec : decode [0b00000110#8] = .ok (.bitdec, []) := by rfl
theorem test_decode_parsebin : decode [0b00000111#8] = .ok (.parsebin, []) := by rfl
theorem test_decode_renderbin : decode [0b00001000#8] = .ok (.renderbin, []) := by rfl
theorem test_decode_reserved9 : decode [0b00001001#8] = .ok (.reserved9, []) := by rfl
theorem test_decode_reserved10 : decode [0b00001010#8] = .ok (.reserved10, []) := by rfl
theorem test_decode_reserved11 : decode [0b00001011#8] = .ok (.reserved11, []) := by rfl
theorem test_decode_reserved12 : decode [0b00001100#8] = .ok (.reserved12, []) := by rfl
theorem test_decode_reserved13 : decode [0b00001101#8] = .ok (.reserved13, []) := by rfl
theorem test_decode_reserved14 : decode [0b00001110#8] = .ok (.reserved14, []) := by rfl
theorem test_decode_reserved15 : decode [0b00001111#8] = .ok (.reserved15, []) := by rfl
theorem test_decode_refuses : decode [0b00010000#8] = .error (.bitsAboveOp 0b00010000#8) := by rfl
theorem test_decode_no_byte : decode [] = .error .noByte := by rfl
theorem test_decodeTableWord :
    decodeTableWord 8 15 = some .reserved15 ∧ decodeTableWord 8 16 = none ∧
      decodeTableWord 8 256 = none := by decide

/-! ### WellFormed refuses an ill-formed request, and so does the block (rule R86) -/

theorem test_refuses_tag_zero : ¬ WellFormed .bitinc (asking (.bitinc 0x3F800000 0)).req := by decide
theorem test_refuses_tag_above : ¬ WellFormed .split (asking (.split 0x3F800000 9)).req := by decide
theorem test_refuses_long_text : ¬ WellFormed .parsebin (asking (.parsebin (text []) 65 100)).req := by
  decide
/-- Vectors U50, F23, K25. -/
theorem test_block_refuses :
    answered (step (asking (.bitinc 0x3F800000 0))) = [6, 0, 0, 0, 8] ∧
      answered (step (asking (.split 0x3F800000 9))) = [6, 0, 0, 9, 8] ∧
      answered (step (asking (.parsebin (text []) 65 100))) = [6, 0, 0, 65, 64] := by decide

/-! ### Vectors -/

/-- B2. -/
theorem test_reinterp_width : answered (step (asking (.reinterp 0xBEEF 2 4))) = [3, 0, 0, 4, 2] := by
  decide
/-- B5. -/
theorem test_reinterp_upper_bits :
    answered (step (asking (.reinterp 0xAABBCCDD11223344 4 4))) = [0, 0x11223344, 4, 0, 0] := by decide
/-- B13, and B16. -/
theorem test_reinterpI32 :
    answered (step (asking (.reinterpI32 0xFFFFFFFF 4))) = [0, 0xFFFFFFFF, 4, 0, 0] ∧
      answered (step (asking (.reinterpI32 0x1122334455667788 8))) = [3, 0, 0, 4, 8] := by decide
/-- B20, and B23. -/
theorem test_reinterpF32 :
    answered (step (asking (.reinterpF32 0x7FA00001 4))) = [0, 0x7FA00001, 4, 0, 0] ∧
      answered (step (asking (.reinterpF32 0x1234 1))) = [3, 0, 0, 4, 1] := by decide
/-- F14. -/
theorem test_split_nan : fields (step (asking (.split 0xFFC12345 4))) = [0, 1, 255, 4268869, 0, 0, 0] := by
  decide
/-- F5, and F19. -/
theorem test_split_boundary :
    fields (step (asking (.split 0x00800000 4))) = [0, 0, 1, 0, 0, 0, 0] ∧
      fields (step (asking (.split 0x3F800000 8))) = [3, 0, 0, 0, 0, 4, 8] := by decide
/-- A12, and A15. -/
theorem test_assemble_masks :
    answered (step (asking (.assemble 3 0x17F 0x00C00000))) = [0, 0xBFC00000, 4, 0, 0] ∧
      answered (step (asking (.assemble 0x80000001 0x80000080 0x80000000))) =
        [0, 0xC0000000, 4, 0, 0] := by decide
/-- E8: `ASSEMBLE` reads neither tag. -/
theorem test_assemble_no_tag :
    answered (step { State.reset with
      req := { (Request.zero Params.standard) with op := 4, s_len := 65535 } }) = [0, 0, 4, 0, 0] := by
  decide
/-- U2, U4, U6. -/
theorem test_bitinc_zero :
    answered (step (asking (.bitinc 0x80000000 4))) = [0, 0x00000001, 4, 0, 0] ∧
      answered (step (asking (.bitinc 0x80000001 4))) = [0, 0x80000000, 4, 0, 0] ∧
      answered (step (asking (.bitinc 0x80800000 4))) = [0, 0x807FFFFF, 4, 0, 0] := by decide
/-- S6, S8, U45. -/
theorem test_bitinc_special :
    answered (step (asking (.bitinc 0xFF800000 4))) = [0, 0xFF7FFFFF, 4, 0, 0] ∧
      answered (step (asking (.bitinc 0x7F800000 4))) = [0, 0x7F800000, 4, 0, 0] ∧
      answered (step (asking (.bitinc 0x7FA00001 4))) = [0, 0x7FA00001, 4, 0, 0] := by decide
/-- S5, U42, U47. -/
theorem test_bitdec_zero :
    answered (step (asking (.bitdec 0x00000000 4))) = [0, 0x80000001, 4, 0, 0] ∧
      answered (step (asking (.bitdec 0x80000002 4))) = [0, 0x80000003, 4, 0, 0] ∧
      answered (step (asking (.bitdec 0xFFFFFFFF00000000 4))) = [0, 0x80000001, 4, 0, 0] := by decide
/-- S7, U26, U44. -/
theorem test_bitdec_special :
    answered (step (asking (.bitdec 0x7F800000 4))) = [0, 0x7F7FFFFF, 4, 0, 0] ∧
      answered (step (asking (.bitdec 0xFF7FFFFF 4))) = [0, 0xFF800000, 4, 0, 0] ∧
      answered (step (asking (.bitdec 0xFF800001 4))) = [0, 0xFF800001, 4, 0, 0] := by decide
/-- Q1: the quirk. -/
theorem test_parsebin_offender :
    answered (step (asking (.parsebin (text [0x31, 0x30, 0x32]) 3 10))) = [2, 0x32, 4, 0, 0] := by decide
/-- K17: the leading one of 33 digits is shifted out. -/
theorem test_parsebin_wraps :
    answered (step (asking (.parsebin (text (0x31 :: List.replicate 32 0x30)) 33 40))) =
      [0, 0, 4, 0, 0] := by decide
/-- T1: the source's truncation example, and that the slots after the string are 0. -/
theorem test_renderbin_truncates :
    shown 5 (step (asking (.renderbin 0x16 4 3))) = [0, 3, 0x31, 0x31, 0x30, 0, 0] := by decide
/-- T20, T33, T7. -/
theorem test_renderbin_lengths :
    shown 10 (step (asking (.renderbin 0x0100 2 0))) =
        [0, 9, 0x31, 0x30, 0x30, 0x30, 0x30, 0x30, 0x30, 0x30, 0x30, 0] ∧
      answered (step (asking (.renderbin 0x16 4 0x7FFFFFFF))) = [4, 0, 0, 2147483647, 32] ∧
      shown 2 (step (asking (.renderbin 0 4 0))) = [0, 1, 0x30, 0] := by decide
/-- E4: `ERR_OP` before `ERR_REQ`. -/
theorem test_reserved_first :
    answered (step { State.reset with
      req := { (Request.zero Params.standard) with op := 12, s_len := 65535 } }) = [5, 0, 0, 12, 0] := by
  decide
/-- E1, E2, E3. -/
theorem test_reserved :
    [Call.reserved9, .reserved10, .reserved11, .reserved13, .reserved14, .reserved15].map
      (fun c => answered (step (asking c))) =
      [[5, 0, 0, 9, 0], [5, 0, 0, 10, 0], [5, 0, 0, 11, 0], [5, 0, 0, 13, 0], [5, 0, 0, 14, 0],
        [5, 0, 0, 15, 0]] := by decide
/-- The wires of `"102"` (the conventions of `95_test_vectors.md`). -/
theorem test_wires_of_102 : stringWires (⟨#[0x31#8, 0x30#8, 0x32#8], rfl⟩) = 0x323031#24 := by decide
/-- The machine at reset steps, and its response stays (`70_reset_and_hazards.md` rule R95). -/
theorem test_reset_step : step State.reset = .next { State.reset with draws := 1 } := by rfl
/-- The word is placed where the step finds it. -/
theorem test_withFetchWord :
    answered (step (State.reset.withFetchWord 8 15)) = [5, 0, 0, 15, 0] ∧
      answered (step (State.reset.withFetchWord 8 4)) = [0, 0, 4, 0, 0] := by decide
/-- The response ports follow the request ports before any step (`10_state.md` rule R18): U2, E1. -/
theorem test_response_follows :
    answered (.next (asking (.bitinc 0x80000000 4))) = [0, 0x00000001, 4, 0, 0] ∧
      answered (.next (State.reset.withFetchWord 8 9)) = [5, 0, 0, 9, 0] := by decide

/-! ### Witnesses: each statement's hypotheses are met, at the ends of their ranges -/

theorem witness_PlacedCodeRuns :
    decodeTableWord 8 5 = some .bitinc ∧ decodeTableWord 8 15 = some .reserved15 ∧ 15 < 16 ∧
      16 ≤ 16 := by decide

theorem witness_ReservedCodesRaiseErrOp :
    9 ≤ (asking .reserved9).req.op.toNat ∧ 9 ≤ (asking .reserved15).req.op.toNat := by decide

theorem witness_MalformedRequestsRaiseErrReq :
    ((asking (.renderbin 1 0 0)).req.a_w.toNat = 0 ∧
      (asking (.renderbin 1 9 0)).params.wmax < (asking (.renderbin 1 9 0)).req.a_w.toNat ∧
      (asking (.parsebin (text []) 65 0)).params.smax <
        (asking (.parsebin (text []) 65 0)).req.s_len.toNat) ∧
    (1 ≤ (asking (.renderbin 1 1 0)).req.a_w.toNat ∧
      (asking (.renderbin 1 8 0)).req.a_w.toNat ≤ (asking (.renderbin 1 8 0)).params.wmax ∧
      (asking (.parsebin (text []) 64 0)).req.s_len.toNat ≤
        (asking (.parsebin (text []) 64 0)).params.smax) ∧
    ∃ t, exec .renderbin (asking (.renderbin 1 1 0)) = .next t :=
  ⟨by decide, by decide, _, rfl⟩

theorem witness_WidthMismatchRaisesErrWidth :
    TagFits (asking (.reinterp 0xBEEF 2 255)).params (asking (.reinterp 0xBEEF 2 255)).req.a_w ∧
      (asking (.reinterp 0xBEEF 2 255)).req.a_w ≠ 255 ∧
      TagFits (asking (.split 1 4)).params (asking (.split 1 4)).req.a_w ∧
      (asking (.split 1 4)).req.a_w = 4 ∧
      TagFits (asking (.split 1 8)).params (asking (.split 1 8)).req.a_w ∧
      (asking (.split 1 8)).req.a_w ≠ 4 := by decide

theorem witness_ErrorsCarryOnlyTheirItems :
    (∃ t, exec .split (asking (.split 1 1)) = .next t ∧ 3 ≤ t.rsp.status.toNat) ∧
      ∃ t, exec .parsebin (asking (.parsebin (text [0x32]) 1 1)) = .next t ∧
        t.rsp.status.toNat ≤ 2 :=
  ⟨⟨_, rfl, by decide⟩, _, rfl, by decide⟩

theorem witness_OperationsEndWithTheirStatuses : ∃ t, exec .assemble (asking (.assemble 1 2 3)) = .next t :=
  ⟨_, rfl⟩

theorem witness_StatusPriority :
    ∃ t, step (asking (.parsebin (text [0x31, 0x30, 0x32]) 3 3)) = .next t ∧ t.rsp.status = 2 :=
  ⟨_, rfl, by decide⟩

/-- For `ReinterpCopiesUnderWidthCheck`, and for the other statements that ask only for a fitting tag
(`ReinterpI32CopiesFourBytes`, `ReinterpF32CopiesFourBytes`, `SplitAnswersFields`, `BitincStepsUp`,
`BitdecStepsDown`). -/
theorem witness_ReinterpCopiesUnderWidthCheck :
    TagFits (asking (.reinterp 1 1 1)).params (asking (.reinterp 1 1 1)).req.a_w ∧
      TagFits (asking (.reinterp 1 8 0)).params (asking (.reinterp 1 8 0)).req.a_w := by decide

theorem witness_ReinterpI32CopiesFourBytes :
    TagFits (asking (.reinterpI32 1 4)).params (asking (.reinterpI32 1 4)).req.a_w := by decide

theorem witness_ReinterpF32CopiesFourBytes :
    TagFits (asking (.reinterpF32 1 4)).params (asking (.reinterpF32 1 4)).req.a_w := by decide

theorem witness_SplitAnswersFields :
    TagFits (asking (.split 1 4)).params (asking (.split 1 4)).req.a_w := by decide

theorem witness_BitincStepsUp :
    TagFits (asking (.bitinc 1 4)).params (asking (.bitinc 1 4)).req.a_w := by decide

theorem witness_BitdecStepsDown :
    TagFits (asking (.bitdec 1 4)).params (asking (.bitdec 1 4)).req.a_w := by decide

theorem witness_ReinterpretationKeepsBits :
    TagFits (asking (.reinterp 0xFF 4 4)).params (asking (.reinterp 0xFF 4 4)).req.a_w ∧
      (asking (.reinterp 0xFF 4 4)).req.a_w = (asking (.reinterp 0xFF 4 4)).req.t_w ∧
      ∃ t, exec .reinterp (asking (.reinterp 0xFF 4 4)) = .next t ∧ t.rsp.r_w = 4 ∧
        t.rsp.r_w = t.req.t_w :=
  ⟨by decide, by decide, _, rfl, by decide, by decide⟩

theorem witness_AssembleAfterSplit : (asking (.split 0xFFC12345 4)).req.a_w = 4 := by decide

theorem witness_SplitAfterAssemble :
    ((asking (.assemble 1 255 8388607)).req.f_sign.toNat ≤ 1 ∧
      (asking (.assemble 1 255 8388607)).req.f_exp.toNat ≤ 255 ∧
      (asking (.assemble 1 255 8388607)).req.f_man.toNat ≤ 8388607) ∧
      ¬ (asking (.assemble 2 0 0)).req.f_sign.toNat ≤ 1 := by decide

theorem witness_StepperBoundaryTable :
    (asking (.bitinc 0xFFFFFFFF80000000 4)).req.a_w = 4 ∧
      (asking (.bitinc 0xFFFFFFFF80000000 4)).req.a.setWidth 32 = 0x80000000#32 ∧
      (asking (.bitinc 0x7F800001 4)).req.a_w = 4 ∧
      (asking (.bitinc 0x7F800001 4)).req.a.setWidth 32 = 0x7F800001#32 ∧
      isNaN 0x7F800001#32 = true := by decide

theorem witness_StepNeverWraps :
    [0x00000000#32, 0x7F7FFFFF#32, 0xFF7FFFFF#32, 0x80000001#32].map isSpecial =
        [false, false, false, false] ∧
      isNegZero 0x7F7FFFFF#32 = false ∧ isNegZero 0xFF7FFFFF#32 = false ∧
      isPosZero 0x00000001#32 = false ∧ isPosZero 0xFF7FFFFF#32 = false := by decide

theorem witness_StepsAreInverse :
    (asking (.bitinc 0x80000000 4)).req.a_w = 4 ∧ (asking (.bitdec 0 4)).req.a_w = 4 := by decide

theorem witness_StepIsToTheNextNumber :
    (asking (.bitinc 0x80000001 4)).req.a_w = 4 ∧
      (∃ x, numericValue ((asking (.bitinc 0x80000001 4)).req.a.setWidth 32) = some (.fin x)) ∧
      numericValue ((asking (.bitinc 0x7F800000 4)).req.a.setWidth 32) = some .posInf ∧
      numericValue ((asking (.bitinc 0xFF800000 4)).req.a.setWidth 32) = some .negInf ∧
      ExtVal.Less .negInf .posInf :=
  ⟨by decide, ⟨_, rfl⟩, rfl, rfl, trivial⟩

theorem witness_ParsebinOverLimitFails :
    TextFits (asking (.parsebin (text []) 64 63)).params (asking (.parsebin (text []) 64 63)).req.s_len ∧
      (asking (.parsebin (text []) 64 63)).req.len.toInt <
        (asking (.parsebin (text []) 64 63)).req.s_len.toNat ∧
      (asking (.parsebin (text []) 0 0xFFFFFFFF)).req.len.toInt <
        (asking (.parsebin (text []) 0 0xFFFFFFFF)).req.s_len.toNat := by decide

theorem witness_ParsebinReportsFirstOffender :
    let s := asking (.parsebin (text [0x31, 0x30, 0x32]) 3 3)
    TextFits s.params s.req.s_len ∧ (s.req.s_len.toNat : Int) ≤ s.req.len.toInt ∧
      2 < s.req.s_len.toNat ∧ (portChar s.req.s 2).toNat ≠ 48 ∧ (portChar s.req.s 2).toNat ≠ 49 ∧
      ∀ k < 2, (portChar s.req.s k).toNat = 48 ∨ (portChar s.req.s k).toNat = 49 := by decide

theorem witness_ParsebinAnswersBaseTwoValue :
    let s := asking (.parsebin (text [0x31, 0x30]) 2 2)
    TextFits s.params s.req.s_len ∧ (s.req.s_len.toNat : Int) ≤ s.req.len.toInt ∧
      ∀ k < s.req.s_len.toNat,
        (portChar s.req.s k).toNat = 48 ∨ (portChar s.req.s k).toNat = 49 := by decide

theorem witness_ParsebinLimitCorners :
    TextFits Params.standard 64 ∧ (0xFFFFFFFF#32).toInt < 0 ∧ 0 ≤ (0#32).toInt := by decide

theorem witness_RenderbinAnswersBits :
    let s := asking (.renderbin 0x16 4 33)
    let u := asking (.renderbin 0x16 4 32)
    let z := asking (.renderbin 0 4 0)
    (TagFits s.params s.req.a_w ∧ (8 * s.req.a_w.toNat : Int) < s.req.len.toInt) ∧
      (TagFits u.params u.req.a_w ∧ u.req.len.toInt ≤ 8 * u.req.a_w.toNat ∧ 0 < u.req.len.toInt) ∧
      TagFits z.params z.req.a_w ∧ z.req.len.toInt ≤ 0 ∧
      z.req.a.setWidth (8 * z.req.a_w.toNat) = 0 := by decide

theorem witness_ParseAfterRender :
    let s := asking (.renderbin 0xB6A5 2 16)
    let z := asking (.renderbin 0xFFFFFFFF 8 0)
    (TagFits s.params s.req.a_w ∧ s.req.len.toInt ≤ 8 * s.req.a_w.toNat ∧ s.req.len.toInt ≤ 32 ∧
        0 < s.req.len.toInt) ∧
      TagFits z.params z.req.a_w ∧ z.req.len.toInt ≤ 0 ∧
      (z.req.a.setWidth (8 * z.req.a_w.toNat)).toNat < 2 ^ 32 ∧
      ∃ t, exec .renderbin s = .next t ∧ (t.rsp.o_len.toNat : Int) ≤ (16#32).toInt :=
  ⟨by decide, by decide, by decide, by decide, _, rfl, by decide⟩

theorem witness_RenderAfterParse :
    let s := asking (.parsebin (text [0x30, 0x31]) 2 2)
    TextFits s.params s.req.s_len ∧ (s.req.s_len.toNat : Int) ≤ s.req.len.toInt ∧
      1 ≤ s.req.s_len.toNat ∧ s.req.s_len.toNat ≤ 32 ∧
      (∀ k < s.req.s_len.toNat,
        (portChar s.req.s k).toNat = 48 ∨ (portChar s.req.s k).toNat = 49) ∧
      (2#32).toNat = s.req.s_len.toNat ∧ (portChar s.req.s 0).toNat = 48 ∧
      1 < s.req.s_len.toNat := by decide

/-- Two requests `BITINC` cannot tell apart, that differ on other ports and above the value. -/
theorem witness_OnlyListedPortsMatter :
    SeenAlike .bitinc (asking (.bitinc 0x3F800000 4)).req
      { (asking (.bitinc 0xDEADBEEF3F800000 4)).req with len := 7, s_len := 65535 } ∧
    (∃ t, exec .bitinc (asking (.bitinc 0x3F800000 4)) = .next t ∧ t.rsp.status.toNat ≤ 2) ∧
    ∃ t, exec .bitinc (asking (.bitinc 0x3F800000 8)) = .next t ∧ 3 ≤ t.rsp.status.toNat := by
  refine ⟨?_, ⟨_, rfl, by decide⟩, _, rfl, by decide⟩
  intro p hp
  simp only [Instr.reads, List.mem_cons, List.not_mem_nil, or_false] at hp
  rcases hp with rfl | rfl | rfl <;> rfl

theorem witness_ResultWidthTag :
    ∃ t, exec .reinterp (asking (.reinterp 0xFF 1 1)) = .next t ∧ t.rsp.status = 0 :=
  ⟨_, rfl, by decide⟩

theorem witness_StringLayoutOnWires : (0 < 3 ∧ 2 < 3) ∧ ∃ v : Vector (BitVec 8) 3, v[2] = 0x32 :=
  ⟨by decide, ⟨#[0x31, 0x30, 0x32], rfl⟩, rfl⟩

theorem witness_StorageByteOrder :
    let s := asking (.renderbin 0x80000000 4 32)
    TagFits s.params s.req.a_w ∧ s.req.len.toNat = 8 * s.req.a_w.toNat ∧ 3 < s.req.a_w.toNat ∧
      7 < 8 := by decide

theorem witness_EveryInstantIsSettled :
    (asking (.bitinc 0x3F800000 4)).Settled ∧
      (∃ t, step (asking (.parsebin (text [0x31, 0x31]) 2 1)) = .next t ∧ t.rsp.status = 1 ∧
        Later (asking (.parsebin (text [0x31, 0x31]) 2 1)) t.copyValue) ∧
      ∃ t, step (asking (.bitinc 0x3F800000 4)) = .next t ∧ t.rsp.status ≠ 1 :=
  ⟨⟨State.reset.draw, rfl⟩, ⟨_, rfl, by decide, .present _ (.step .now rfl)⟩, _, rfl, by decide⟩

/-- The smallest instance of rule R4. -/
def smallest : Params where
  wmax := 4
  smax := 32
  charW := 6
  wmax_ge := by decide
  wmax_le := by decide
  smax_ge := by decide
  smax_le := by decide
  charW_ge := by decide
  charW_le := by decide

/-- A request on the smallest instance. -/
def askingSmallest (c : Call smallest) : State where
  params := smallest
  req := encodeCall c
  rsp := evaluate (encodeCall c) 0
  draws := 1

theorem witness_ParametersDoNotMatter :
    let s := asking (.bitinc 0xDEADBEEF3F800000 4)
    let u := askingSmallest (.bitinc 0x3F800000 4)
    WellFormed .bitinc s.req ∧ WellFormed .bitinc u.req ∧ SeenAlike .bitinc s.req u.req ∧
      s.draws = u.draws ∧ s.params ≠ u.params := by
  refine ⟨by decide, by decide, ?_, rfl, by decide⟩
  intro p hp
  simp only [Instr.reads, List.mem_cons, List.not_mem_nil, or_false] at hp
  rcases hp with rfl | rfl | rfl <;> rfl

/-- For every statement whose only hypothesis is a step: `EachEvaluationSpendsOneDraw`,
`SameRequestSameResponse`, `StepLeavesLegalResponse`, `StepSettles`. -/
theorem witness_EachEvaluationSpendsOneDraw :
    ∃ t, step (asking (.parsebin (text [0x31, 0x31]) 2 1)) = .next t ∧ t.rsp.status = 1 :=
  ⟨_, rfl, by decide⟩

theorem witness_SameRequestSameResponse :
    (∃ t, step (asking (.parsebin (text [0x31, 0x31]) 2 1)) = .next t ∧ t.rsp.status = 1) ∧
      ∃ t, step (asking (.parsebin (text [0x31, 0x31]) 2 2)) = .next t ∧ t.rsp.status ≠ 1 :=
  ⟨⟨_, rfl, by decide⟩, _, rfl, by decide⟩

theorem witness_StepLeavesLegalResponse : ∃ t, step (asking (.renderbin 0x16 4 0)) = .next t := ⟨_, rfl⟩

theorem witness_StepSettles : ∃ t, step (asking (.renderbin 0x16 4 65)) = .next t := ⟨_, rfl⟩

end Sys2Proof.Tests.Slice0
end

section
/-! The decomposition of a BitPattern32 into its three fields (`10_state.md` rule R12). -/

namespace Sys2Proof.Machine

/-- `sign·2^31 | exponent·2^23 | mantissa`, the value of the concatenated fields. -/
theorem joinFields_toNat (sign : BitVec 1) (exponent : BitVec 8) (mantissa : BitVec 23) :
    (joinFields sign exponent mantissa).toNat =
      sign.toNat * 2 ^ 31 ||| exponent.toNat * 2 ^ 23 ||| mantissa.toNat := by
  simp only [joinFields, BitVec.setWidth_eq, BitVec.toNat_append, Nat.shiftLeft_or_distrib,
    ← Nat.shiftLeft_add, ← Nat.shiftLeft_eq]

/-- The three bit ranges are adjacent and cover the word. -/
theorem joinFields_fields (p : Word) :
    joinFields (signField p) (exponentField p) (mantissaField p) = p := by
  have hhigh : signField p ++ exponentField p = p.extractLsb' 23 9 :=
    BitVec.extractLsb'_append_extractLsb'_eq_extractLsb' rfl
  have hall : p.extractLsb' 23 9 ++ mantissaField p = p.extractLsb' 0 32 :=
    BitVec.extractLsb'_append_extractLsb'_eq_extractLsb' rfl
  rw [joinFields, hhigh, hall, BitVec.setWidth_eq, BitVec.extractLsb'_eq_self]

/-- Settles O16: the arithmetic reconstruction is the value of the concatenation, and the
concatenation is the pattern. -/
theorem fieldsReconstructPattern : Obligations.FieldsReconstructPattern := by
  unfold Obligations.FieldsReconstructPattern
  intro p
  refine ⟨signField_toNat p, exponentField_toNat p, mantissaField_toNat p, ?_,
    (joinFields_fields p).symm⟩
  rw [← joinFields_toNat, joinFields_fields]

end Sys2Proof.Machine
end

section
/-! The operation codes and what `op` selects (`30_encoding.md` rule R35). -/

namespace Sys2Proof.Machine

/-- Settles O1: the sixteen rows of the decoder, and `step` is `exec` of the decoded `op` by
definition. -/
theorem opCodeSelectsOperation : Obligations.OpCodeSelectsOperation := by
  unfold Obligations.OpCodeSelectsOperation
  refine ⟨⟨decodeOp_0, decodeOp_1, decodeOp_2, decodeOp_3, decodeOp_4, decodeOp_5, decodeOp_6,
    decodeOp_7, decodeOp_8, decodeOp_9, decodeOp_10, decodeOp_11, decodeOp_12, decodeOp_13,
    decodeOp_14, decodeOp_15⟩, ?_⟩
  intro s
  rfl

end Sys2Proof.Machine
end

section
/-! The width tag of the result (`30_encoding.md` rule R43): one tag per operation, and the shared
checks keep it because a raised error has tag 0. -/

namespace Sys2Proof.Machine

variable {P : Params}

/-- The `ERR_` statuses are the codes from 3 on (`30_encoding.md` rule R37). -/
theorem three_le_code_iff (e : Status) : 3 ≤ e.code.toNat ↔ e.isErr = true := by
  cases e <;> decide

/-! ### A response with a given tag unless it is an error -/

/-- The response is an error with width tag 0, or its width tag is `w`. -/
def Response.HasTag (x : Response P) (w : BitVec 8) : Prop :=
  x.r_w = if 3 ≤ x.status.toNat then 0 else w

theorem hasTag_raise {e : Status} (he : e.isErr = true) (x y : Word) (w : BitVec 8) :
    (raise P e x y).HasTag w :=
  (if_pos ((three_le_code_iff e).2 he)).symm

/-- Under an ordinary result the tag is the one on the port. -/
theorem hasTag_of_status {x : Response P} (e : Status) (hx : x.status = e.code)
    (he : e.isErr = false) : x.HasTag x.r_w := by
  have hlt : ¬ 3 ≤ x.status.toNat := by simp [hx, three_le_code_iff, he]
  exact (if_neg hlt).symm

theorem hasTag_answerPattern (p : Word) : (answerPattern P p).HasTag 4 :=
  hasTag_of_status .ok rfl rfl

/-- A check goes on or raises: the tag is kept when both branches have it. -/
theorem hasTag_ite {c : Prop} [Decidable c] {x y : Response P} {w : BitVec 8}
    (hx : x.HasTag w) (hy : y.HasTag w) : (if c then x else y).HasTag w := by
  split
  · exact hx
  · exact hy

theorem hasTag_withTag {q : Request P} {k : Response P} {w : BitVec 8} (hk : k.HasTag w) :
    (withTag q k).HasTag w :=
  hasTag_ite hk (hasTag_raise rfl _ _ w)

theorem hasTag_withText {q : Request P} {k : Response P} {w : BitVec 8} (hk : k.HasTag w) :
    (withText q k).HasTag w :=
  hasTag_ite hk (hasTag_raise rfl _ _ w)

theorem hasTag_withFour {q : Request P} {k : Response P} {w : BitVec 8} (hk : k.HasTag w) :
    (withFour q k).HasTag w :=
  hasTag_ite (hasTag_raise rfl _ _ w) hk

/-! ### The operations' own rules -/

theorem hasTag_reinterpRule (q : Request P) : (reinterpRule q).HasTag q.t_w :=
  hasTag_ite (hasTag_raise rfl _ _ _) (hasTag_of_status .ok rfl rfl)

theorem hasTag_splitRule (q : Request P) : (splitRule q).HasTag 0 :=
  hasTag_withFour (hasTag_of_status .ok rfl rfl)

theorem hasTag_scanResponse (c : Scan P.charW) : (scanResponse P c).HasTag 4 := by
  cases c with
  | value acc => exact hasTag_answerPattern acc
  | offender c => exact hasTag_of_status .failDigit rfl rfl

theorem hasTag_parsebinRule (q : Request P) (d : Word) : (parsebinRule q d).HasTag 4 :=
  hasTag_ite (hasTag_of_status .failLen rfl rfl) (hasTag_scanResponse _)

theorem hasTag_renderbinRule (q : Request P) : (renderbinRule q).HasTag 0 :=
  hasTag_ite (hasTag_raise rfl _ _ 0) (hasTag_of_status .ok rfl rfl)

theorem reinterpRule_of_ne {q : Request P} (h : q.a_w ≠ q.t_w) :
    reinterpRule q = raise P .errWidth (q.t_w.setWidth 32) (q.a_w.setWidth 32) :=
  if_pos ((tagsDiffer_iff q).2 h)

/-! ### Every operation -/

/-- The width tag rule R43 gives the result of each operation. -/
def resultTag (i : Instr) (q : Request P) : BitVec 8 :=
  match i with
  | .reinterp => q.t_w
  | .reinterpI32 | .reinterpF32 | .assemble | .bitinc | .bitdec | .parsebin => 4
  | _ => 0

theorem hasTag_responseOf (i : Instr) (q : Request P) (d : Word) :
    (responseOf i q d).HasTag (resultTag i q) := by
  cases i
  case reinterp => exact hasTag_withTag (hasTag_reinterpRule q)
  case reinterpI32 => exact hasTag_withTag (hasTag_withFour (hasTag_answerPattern _))
  case reinterpF32 => exact hasTag_withTag (hasTag_withFour (hasTag_answerPattern _))
  case split => exact hasTag_withTag (hasTag_splitRule q)
  case assemble => exact hasTag_answerPattern _
  case bitinc => exact hasTag_withTag (hasTag_withFour (hasTag_answerPattern _))
  case bitdec => exact hasTag_withTag (hasTag_withFour (hasTag_answerPattern _))
  case parsebin => exact hasTag_withText (hasTag_parsebinRule q d)
  case renderbin => exact hasTag_withTag (hasTag_renderbinRule q)
  all_goals exact hasTag_raise rfl _ _ 0

/-- REINTERP answers `OK` only when the two width tags are equal (`40_bitreinterpreter.md` rule
R50). -/
theorem tags_eq_of_reinterp_ok {q : Request P} (h : (withTag q (reinterpRule q)).status = 0) :
    q.a_w = q.t_w := by
  by_contra hne
  rw [reinterpRule_of_ne hne] at h
  by_cases ht : TagFits P q.a_w
  · simp [withTag_of_fits ht, Status.code] at h
  · simp [withTag_of_not_fits ht, Status.code] at h

/-- Settles O36: `exec` writes `responseOf`, whose tag is `resultTag` unless it is an error. -/
theorem resultWidthTag : Obligations.ResultWidthTag := by
  unfold Obligations.ResultWidthTag
  intro i s t h
  obtain rfl := eq_answer_of_exec h
  refine ⟨hasTag_responseOf i s.req s.draw, ?_⟩
  rintro rfl hok
  exact (tags_eq_of_reinterp_ok hok).symm

end Sys2Proof.Machine
end

section
/-! The three reinterpretations under the width check (`40_bitreinterpreter.md` rules R50 to R52): on a
fitting tag each answers its own rule, and each rule is the two-way choice between the raised error and
the copy. -/

namespace Sys2Proof.Machine

variable {P : Params}

theorem reinterpRule_of_eq {q : Request P} (h : q.a_w = q.t_w) :
    reinterpRule q = answerValue q.t_w (portValue q.a_w.toNat q.a) :=
  if_neg (mt (tagsDiffer_iff q).1 (not_not.2 h))

theorem reinterpRule_eq_ite (q : Request P) :
    reinterpRule q =
      if q.a_w ≠ q.t_w then raise P .errWidth (q.t_w.setWidth 32) (q.a_w.setWidth 32)
      else answerValue q.t_w (portValue q.a_w.toNat q.a) := by
  split
  case isTrue hne => exact reinterpRule_of_ne hne
  case isFalse heq => exact reinterpRule_of_eq (not_not.1 heq)

/-- The width check of a 4-byte operation, with the tags compared as bit vectors. -/
theorem withFour_eq_ite (q : Request P) (k : Response P) :
    withFour q k = if q.a_w ≠ 4 then raise P .errWidth 4 (q.a_w.setWidth 32) else k := by
  split
  case isTrue hne => exact withFour_of_ne hne k
  case isFalse heq => exact withFour_of_four (not_not.1 heq) k

theorem exec_reinterp_of_fits {s : State} (ht : TagFits s.params s.req.a_w) :
    exec .reinterp s = .next (s.answer (reinterpRule s.req)) := by
  rw [exec_reinterp, withTag_of_fits ht]

theorem exec_reinterpI32_of_fits {s : State} (ht : TagFits s.params s.req.a_w) :
    exec .reinterpI32 s = .next (s.answer (reinterpI32Rule s.req)) := by
  rw [exec_reinterpI32, withTag_of_fits ht]

/-- Rules R51 and R52 give one meaning: the two operations differ in the copy's reading only. -/
theorem exec_reinterpF32_eq_reinterpI32 (s : State) :
    exec .reinterpF32 s = exec .reinterpI32 s := rfl

/-- Settles O11: the width check of R50 decides between `ERR_WIDTH` and the copy of the value. -/
theorem reinterpCopiesUnderWidthCheck : Obligations.ReinterpCopiesUnderWidthCheck := by
  unfold Obligations.ReinterpCopiesUnderWidthCheck
  intro s ht
  refine ⟨s.draws + 1, ?_⟩
  rw [exec_reinterp_of_fits ht, reinterpRule_eq_ite]
  rfl

/-- Settles O12: the 4-byte width check decides between `ERR_WIDTH` and the copy of `a[31:0]`. -/
theorem reinterpI32CopiesFourBytes : Obligations.ReinterpI32CopiesFourBytes := by
  unfold Obligations.ReinterpI32CopiesFourBytes
  intro s ht
  refine ⟨s.draws + 1, ?_⟩
  rw [exec_reinterpI32_of_fits ht, reinterpI32Rule, withFour_eq_ite]
  rfl

/-- Settles O13: REINTERP_F32 answers what REINTERP_I32 answers. -/
theorem reinterpF32CopiesFourBytes : Obligations.ReinterpF32CopiesFourBytes := by
  unfold Obligations.ReinterpF32CopiesFourBytes
  intro s ht
  rw [exec_reinterpF32_eq_reinterpI32]
  exact reinterpI32CopiesFourBytes s ht

end Sys2Proof.Machine
end

section
/-! SPLIT and ASSEMBLE (`41_fieldcodec.md` rules R55 to R57): the fields zero-extended to a word,
the fields as masks of a word, and the two operations' rules in those terms. -/

namespace Sys2Proof.Machine

variable {P : Params}

/-! ### The fields of a pattern, zero-extended -/

theorem signField_zeroExtended (p : Word) :
    (signField p).setWidth 32 = BitVec.ofNat 32 (p.toNat / 2 ^ 31) := by
  rw [← BitVec.ofNat_toNat]
  exact congrArg _ (signField_toNat p)

theorem exponentField_zeroExtended (p : Word) :
    (exponentField p).setWidth 32 = BitVec.ofNat 32 (p.toNat / 2 ^ 23 % 256) := by
  rw [← BitVec.ofNat_toNat]
  exact congrArg _ (exponentField_toNat p)

theorem mantissaField_zeroExtended (p : Word) :
    (mantissaField p).setWidth 32 = BitVec.ofNat 32 (p.toNat % 2 ^ 23) := by
  rw [← BitVec.ofNat_toNat]
  exact congrArg _ (mantissaField_toNat p)

theorem answerFields_eq_quotients (p : Word) :
    answerFields P p =
      { Response.zero P with
        status := 0
        r_sign := BitVec.ofNat 32 (p.toNat / 2 ^ 31)
        r_exp := BitVec.ofNat 32 (p.toNat / 2 ^ 23 % 256)
        r_man := BitVec.ofNat 32 (p.toNat % 2 ^ 23) } := by
  rw [answerFields, signField_zeroExtended, exponentField_zeroExtended, mantissaField_zeroExtended]
  rfl

/-! ### The low bits of a word as a mask -/

/-- Truncating a word to `k` bits and extending it again clears the bits from `k` on. -/
theorem and_lowMask (x : Word) (k : Nat) (hk : k ≤ 32) :
    x &&& BitVec.ofNat 32 (2 ^ k - 1) = (x.setWidth k).setWidth 32 := by
  have hmask : 2 ^ k - 1 < 2 ^ 32 :=
    lt_of_lt_of_le (Nat.sub_lt (by positivity) one_pos) (Nat.pow_le_pow_right two_pos hk)
  have hx : x.toNat % 2 ^ k < 2 ^ 32 := lt_of_le_of_lt (Nat.mod_le _ _) x.isLt
  apply BitVec.eq_of_toNat_eq
  rw [BitVec.toNat_and, BitVec.toNat_ofNat, Nat.mod_eq_of_lt hmask, Nat.and_two_pow_sub_one_eq_mod,
    BitVec.toNat_setWidth, BitVec.toNat_setWidth, Nat.mod_eq_of_lt hx]

/-- The concatenated fields are the shifted fields joined by OR. -/
theorem joinFields_eq_shifts (sign : BitVec 1) (exponent : BitVec 8) (mantissa : BitVec 23) :
    joinFields sign exponent mantissa =
      sign.setWidth 32 <<< 31 ||| exponent.setWidth 32 <<< 23 ||| mantissa.setWidth 32 :=
  BitVec.setWidth_append_append_eq_shiftLeft_setWidth_or

/-- Rule R56 in the source's arithmetic form. -/
theorem assembleRule_eq_masks (q : Request P) :
    assembleRule q = answerPattern P
      ((q.f_sign &&& 1) <<< 31 ||| (q.f_exp &&& 0xFF) <<< 23 ||| (q.f_man &&& 0x7FFFFF)) := by
  have hsign : q.f_sign &&& 1 = (q.f_sign.setWidth 1).setWidth 32 := and_lowMask _ 1 (by decide)
  have hexp : q.f_exp &&& 0xFF = (q.f_exp.setWidth 8).setWidth 32 := and_lowMask _ 8 (by decide)
  have hman : q.f_man &&& 0x7FFFFF = (q.f_man.setWidth 23).setWidth 32 :=
    and_lowMask _ 23 (by decide)
  rw [assembleRule, joinFields_eq_shifts, hsign, hexp, hman]

/-! ### The two operations -/

theorem exec_split_of_fits {s : State} (ht : TagFits s.params s.req.a_w) :
    exec .split s = .next (s.answer (splitRule s.req)) := by
  rw [exec_split, withTag_of_fits ht]

theorem exec_split_of_four {s : State} (h : s.req.a_w = 4) :
    exec .split s = .next (s.answer (answerFields s.params (portPattern s.req.a))) := by
  have ht : TagFits s.params s.req.a_w := h ▸ tagFits_four
  rw [exec_split_of_fits ht, splitRule, withFour_of_four h]

/-- ASSEMBLE of the zero-extended fields of `p` answers `p`: truncation undoes the extension, and
the fields cover the pattern. -/
theorem assembleRule_of_fields {q : Request P} {p : Word}
    (hsign : q.f_sign = (signField p).setWidth 32) (hexp : q.f_exp = (exponentField p).setWidth 32)
    (hman : q.f_man = (mantissaField p).setWidth 32) : assembleRule q = answerPattern P p := by
  have htrunc {k : Nat} (x : BitVec k) (hk : k ≤ 32) : (x.setWidth 32).setWidth k = x := by
    rw [BitVec.setWidth_setWidth_of_le _ hk, BitVec.setWidth_eq]
  rw [assembleRule, hsign, hexp, hman, htrunc (signField p) (by decide),
    htrunc (exponentField p) (by decide), htrunc (mantissaField p) (by decide), joinFields_fields]

/-- Settles O17: the 4-byte width check decides between `ERR_WIDTH` and the three fields, which are
quotients and remainders of the pattern. -/
theorem splitAnswersFields : Obligations.SplitAnswersFields := by
  unfold Obligations.SplitAnswersFields
  intro s ht
  refine ⟨s.draws + 1, ?_⟩
  rw [exec_split_of_fits ht, splitRule, withFour_eq_ite, answerFields_eq_quotients]
  rfl

/-- Settles O18: truncating a field is masking it, and concatenating the fields is shifting and
joining them. -/
theorem assembleMasksAndJoins : Obligations.AssembleMasksAndJoins := by
  unfold Obligations.AssembleMasksAndJoins
  intro s
  refine ⟨s.draws + 1, ?_⟩
  rw [exec_assemble, assembleRule_eq_masks]
  rfl

/-- Settles O19: the copied ports carry the zero-extended fields of `a[31:0]`, so ASSEMBLE answers
that pattern. -/
theorem assembleAfterSplit : Obligations.AssembleAfterSplit := by
  unfold Obligations.AssembleAfterSplit
  intro s h
  refine ⟨_, exec_split_of_four h, rfl, _, exec_assemble _, ?_⟩
  rw [answer_rsp, assembleRule_of_fields (p := portPattern s.req.a) rfl rfl rfl]
  exact ⟨rfl, rfl, portPattern_setWidth _⟩

end Sys2Proof.Machine
end

section
/-! The classes of a BitPattern32 (`42_ulpstepper.md` rule R60): a pattern is its three fields, so a
class of one pattern is a test on fields, and a test on fields is a range of patterns. -/

namespace Sys2Proof.Machine

/-- Two patterns with the same three fields are the same pattern. -/
theorem eq_iff_fields (p q : Word) :
    p = q ↔ signField p = signField q ∧ exponentField p = exponentField q ∧
      mantissaField p = mantissaField q := by
  constructor
  · rintro rfl
    exact ⟨rfl, rfl, rfl⟩
  · rintro ⟨hsign, hexp, hman⟩
    rw [← joinFields_fields p, hsign, hexp, hman, joinFields_fields]

theorem isSpecial_iff_exponent (p : Word) : isSpecial p = true ↔ exponentField p = 255 :=
  beq_iff_eq

theorem isPosInf_iff_eq (p : Word) : isPosInf p = true ↔ p = 0x7F800000#32 := beq_iff_eq

theorem isNegInf_iff_eq (p : Word) : isNegInf p = true ↔ p = 0xFF800000#32 := beq_iff_eq

theorem isNegZero_iff_eq (p : Word) : isNegZero p = true ↔ p = 0x80000000#32 := beq_iff_eq

theorem isPosZero_iff_eq (p : Word) : isPosZero p = true ↔ p = 0x00000000#32 := beq_iff_eq

theorem isPosInf_iff_fields (p : Word) :
    isPosInf p = true ↔ signField p = 0 ∧ exponentField p = 255 ∧ mantissaField p = 0 :=
  (isPosInf_iff_eq p).trans (eq_iff_fields p _)

theorem isNegInf_iff_fields (p : Word) :
    isNegInf p = true ↔ signField p = 1 ∧ exponentField p = 255 ∧ mantissaField p = 0 :=
  (isNegInf_iff_eq p).trans (eq_iff_fields p _)

theorem isNaN_iff_fields (p : Word) :
    isNaN p = true ↔ exponentField p = 255 ∧ mantissaField p ≠ 0 := by
  rw [isNaN, Bool.and_eq_true, beq_iff_eq, bne_iff_ne]
  rfl

theorem isSpecial_iff_range (p : Word) :
    isSpecial p = true ↔
      0x7F800000 ≤ p.toNat ∧ p.toNat ≤ 0x7FFFFFFF ∨ 0xFF800000 ≤ p.toNat := by
  have hlt := p.isLt
  rw [isSpecial_iff_toNat]
  omega

theorem isNaN_iff_range (p : Word) :
    isNaN p = true ↔
      0x7F800001 ≤ p.toNat ∧ p.toNat ≤ 0x7FFFFFFF ∨ 0xFF800001 ≤ p.toNat := by
  have hlt := p.isLt
  rw [isNaN_iff_toNat]
  omega

/-- Settles O21: one lemma per class and form of its test. -/
theorem classesAreRanges : Obligations.ClassesAreRanges := by
  unfold Obligations.ClassesAreRanges
  intro p
  exact ⟨isSpecial_iff_exponent p, isSpecial_iff_range p, isPosInf_iff_toNat p,
    isPosInf_iff_fields p, isNegInf_iff_toNat p, isNegInf_iff_fields p, isNaN_iff_fields p,
    isNaN_iff_range p, isNegZero_iff_toNat p, isPosZero_iff_toNat p⟩

end Sys2Proof.Machine
end

section
/-! BITINC and BITDEC (`42_ulpstepper.md` rules R61, R62, R64, R68): the three cases of each step as
tests on the pattern, the patterns a step leaves unchanged, and the two operations' answers. -/

namespace Sys2Proof.Machine

/-! ### The three cases of a step -/

/-- Rule R6 (a): the sign bit is the sign of the two's complement integer. -/
theorem isNegative_iff_toInt (p : Word) : isNegative p = true ↔ p.toInt < 0 := by
  rw [isNegative_iff_toNat, BitVec.toInt_neg_iff]
  omega

/-- Rule R61 with its tests as propositions about the pattern. -/
theorem stepUp_eq_ite (p : Word) :
    stepUp p =
      if exponentField p = 255 then (if p = 0xFF800000#32 then 0xFF7FFFFF#32 else p)
      else if p = 0x80000000#32 then 0x00000001#32
      else if p.toInt < 0 then p - 1#32
      else p + 1#32 := by
  simp only [stepUp, isSpecial_iff_exponent, isNegInf_iff_eq, isNegZero_iff_eq,
    isNegative_iff_toInt]

/-- Rule R62 with its tests as propositions about the pattern. -/
theorem stepDown_eq_ite (p : Word) :
    stepDown p =
      if exponentField p = 255 then (if p = 0x7F800000#32 then 0x7F7FFFFF#32 else p)
      else if p = 0x00000000#32 then 0x80000001#32
      else if p.toInt < 0 then p + 1#32
      else p - 1#32 := by
  simp only [stepDown, isSpecial_iff_exponent, isPosInf_iff_eq, isPosZero_iff_eq,
    isNegative_iff_toInt]

/-! ### Patterns a step leaves unchanged -/

theorem stepUp_of_special {p : Word} (hs : isSpecial p = true) (hn : p ≠ 0xFF800000#32) :
    stepUp p = p := by
  rw [stepUp_eq_ite, if_pos ((isSpecial_iff_exponent p).1 hs), if_neg hn]

theorem stepDown_of_special {p : Word} (hs : isSpecial p = true) (hp : p ≠ 0x7F800000#32) :
    stepDown p = p := by
  rw [stepDown_eq_ite, if_pos ((isSpecial_iff_exponent p).1 hs), if_neg hp]

theorem isSpecial_of_isNaN {p : Word} (h : isNaN p = true) : isSpecial p = true :=
  (isSpecial_iff_exponent p).2 ((isNaN_iff_fields p).1 h).1

/-- A NaN is no infinity: the mantissa of an infinity is 0. -/
theorem ne_of_isNaN {p q : Word} (h : isNaN p = true) (hq : mantissaField q = 0) : p ≠ q := by
  rintro rfl
  exact ((isNaN_iff_fields p).1 h).2 hq

theorem stepUp_of_isNaN {p : Word} (h : isNaN p = true) : stepUp p = p :=
  stepUp_of_special (isSpecial_of_isNaN h) (ne_of_isNaN h rfl)

theorem stepDown_of_isNaN {p : Word} (h : isNaN p = true) : stepDown p = p :=
  stepDown_of_special (isSpecial_of_isNaN h) (ne_of_isNaN h rfl)

/-! ### The two operations -/

theorem exec_bitinc_of_fits {s : State} (ht : TagFits s.params s.req.a_w) :
    exec .bitinc s = .next (s.answer (bitincRule s.req)) := by
  rw [exec_bitinc, withTag_of_fits ht]

theorem exec_bitdec_of_fits {s : State} (ht : TagFits s.params s.req.a_w) :
    exec .bitdec s = .next (s.answer (bitdecRule s.req)) := by
  rw [exec_bitdec, withTag_of_fits ht]

theorem exec_bitinc_of_four {s : State} (h : s.req.a_w = 4) :
    exec .bitinc s =
      .next (s.answer (answerPattern s.params (stepUp (portPattern s.req.a)))) := by
  rw [exec_bitinc_of_fits (h ▸ tagFits_four), bitincRule, withFour_of_four h]

theorem exec_bitdec_of_four {s : State} (h : s.req.a_w = 4) :
    exec .bitdec s =
      .next (s.answer (answerPattern s.params (stepDown (portPattern s.req.a)))) := by
  rw [exec_bitdec_of_fits (h ▸ tagFits_four), bitdecRule, withFour_of_four h]

/-- Settles O22: the 4-byte width check decides between `ERR_WIDTH` and the step up, in R61's three
cases. -/
theorem bitincStepsUp : Obligations.BitincStepsUp := by
  unfold Obligations.BitincStepsUp
  intro s ht
  refine ⟨s.draws + 1, ?_⟩
  rw [exec_bitinc_of_fits ht, bitincRule, withFour_eq_ite, stepUp_eq_ite]
  rfl

/-- Settles O23: the 4-byte width check decides between `ERR_WIDTH` and the step down, in R62's
three cases. -/
theorem bitdecStepsDown : Obligations.BitdecStepsDown := by
  unfold Obligations.BitdecStepsDown
  intro s ht
  refine ⟨s.draws + 1, ?_⟩
  rw [exec_bitdec_of_fits ht, bitdecRule, withFour_eq_ite, stepDown_eq_ite]
  rfl

/-- The numbers on port `r` after either step are those of the stepped pattern. -/
theorem exec_steps_of_pattern {s : State} {p : Word} (h : s.req.a_w = 4)
    (hp : s.req.a.setWidth 32 = p) :
    ∃ t u, exec .bitinc s = .next t ∧ exec .bitdec s = .next u ∧
      t.rsp.status = 0 ∧ u.rsp.status = 0 ∧
      t.rsp.r.toNat = (stepUp p).toNat ∧ u.rsp.r.toNat = (stepDown p).toNat := by
  subst hp
  exact ⟨_, _, exec_bitinc_of_four h, exec_bitdec_of_four h, rfl, rfl,
    setWidth_vw_toNat _, setWidth_vw_toNat _⟩

/-- Settles O24: the answers are the stepped pattern; each line of the table is that step evaluated,
and a NaN is a special pattern that is no infinity. -/
theorem stepperBoundaryTable : Obligations.StepperBoundaryTable := by
  unfold Obligations.StepperBoundaryTable
  intro s p h hp
  obtain ⟨t, u, ht, hu, htok, huok, htr, hur⟩ := exec_steps_of_pattern h hp
  refine ⟨t, u, ht, hu, htok, huok, ?_⟩
  rw [htr, hur]
  refine ⟨?negZero, ?posZero, ?negInfUp, ?posInfDown, ?posInfUp, ?negInfDown, ?nan⟩
  case nan =>
    intro hnan
    exact ⟨congrArg _ (stepUp_of_isNaN hnan), congrArg _ (stepDown_of_isNaN hnan)⟩
  all_goals
    rintro rfl
    decide

end Sys2Proof.Machine
end

section
/-! PARSEBIN (`43_binarystringcodec.md` rules R70 to R73, R77): the length check decides between the
draw and the scan, and the scan of the request's text ends with its base-2 value or with its first
character that is no digit. -/

namespace Sys2Proof.Machine

variable {P : Params}

/-! ### The length check -/

theorem exec_parsebin_of_fits {s : State} (ht : TextFits s.params s.req.s_len) :
    exec .parsebin s = .next (s.answer (parsebinRule s.req s.draw)) := by
  rw [exec_parsebin, withText_of_fits ht]

theorem parsebinRule_of_tooLong {q : Request P} (h : q.len.toInt < q.s_len.toNat) (d : Word) :
    parsebinRule q d = { answerPattern P d with status := Status.failLen.code } :=
  if_pos ((textTooLong_iff q).2 h)

theorem parsebinRule_of_within {q : Request P} (h : q.s_len.toNat ≤ q.len.toInt) (d : Word) :
    parsebinRule q d = scanResponse P (scan 0#32 (requestText q)) :=
  if_neg (mt (textTooLong_iff q).1 (not_lt.2 h))

/-! ### The scan of the request's text -/

theorem scan_requestText_of_digits {q : Request P}
    (h : ∀ k < q.s_len.toNat, (portChar q.s k).toNat = 48 ∨ (portChar q.s k).toNat = 49) :
    scan 0#32 (requestText q) = .value (BitVec.ofNat 32 (digitsValue (requestText q))) := by
  have htext := (forall_mem_requestText q fun c => c.toNat = 48 ∨ c.toNat = 49).2 h
  rw [scan_digits _ htext, BitVec.toNat_zero, Nat.zero_mul, Nat.zero_add]

theorem scan_requestText_of_offender {q : Request P} {j : Nat} (hj : j < q.s_len.toNat)
    (hpre : ∀ k < j, (portChar q.s k).toNat = 48 ∨ (portChar q.s k).toNat = 49)
    (hc : ¬ ((portChar q.s j).toNat = 48 ∨ (portChar q.s j).toNat = 49)) :
    scan 0#32 (requestText q) = .offender (portChar q.s j) := by
  rw [requestText_split q hj]
  refine scan_offender _ _ _ ?_ hc _
  simpa only [List.forall_mem_map, List.mem_range] using hpre

/-- A character has at most 32 bits, so its code point is the number on the port. -/
theorem codePoint_toNat (c : BitVec P.charW) : (c.setWidth 32 : Word).toNat = c.toNat :=
  BitVec.toNat_setWidth_of_le P.charW_le

/-! ### The three answers -/

/-- Settles O28: the length check comes first, and the value is this evaluation's draw. -/
theorem parsebinOverLimitFails : Obligations.ParsebinOverLimitFails := by
  unfold Obligations.ParsebinOverLimitFails
  intro s ht hlong
  refine ⟨s.draw, s.draws + 1, ?_⟩
  rw [exec_parsebin_of_fits ht, parsebinRule_of_tooLong hlong]
  rfl

/-- Settles O29: the scan keeps nothing of the digits before the offender, and zero extension keeps
its code point. -/
theorem parsebinReportsFirstOffender : Obligations.ParsebinReportsFirstOffender := by
  unfold Obligations.ParsebinReportsFirstOffender
  intro s j ht hwithin hj hne48 hne49 hpre
  have hcode := codePoint_toNat (portChar s.req.s j)
  refine ⟨s.draws + 1, ?answer, ?not0, ?not1, hcode⟩
  case answer =>
    rw [exec_parsebin_of_fits ht, parsebinRule_of_within hwithin,
      scan_requestText_of_offender hj hpre (not_or.2 ⟨hne48, hne49⟩)]
    rfl
  case not0 =>
    intro h
    exact hne48 (hcode.symm.trans (congrArg BitVec.toNat h))
  case not1 =>
    intro h
    exact hne49 (hcode.symm.trans (congrArg BitVec.toNat h))

/-- Settles O30: a text of digits is scanned to its end, with its base-2 value in the accumulator. -/
theorem parsebinAnswersBaseTwoValue : Obligations.ParsebinAnswersBaseTwoValue := by
  unfold Obligations.ParsebinAnswersBaseTwoValue
  intro s ht hwithin hdigits
  refine ⟨s.draws + 1, ?_⟩
  rw [exec_parsebin_of_fits ht, parsebinRule_of_within hwithin, scan_requestText_of_digits hdigits]
  rfl

end Sys2Proof.Machine
end

section
/-! RENDERBIN (`43_binarystringcodec.md` rules R74, R75): the range check decides between `ERR_RANGE`
and the string, and the automatic length is the position of the value's highest set bit. -/

namespace Sys2Proof.Machine

variable {P : Params}

/-! ### The range check -/

theorem exec_renderbin_of_fits {s : State} (ht : TagFits s.params s.req.a_w) :
    exec .renderbin s = .next (s.answer (renderbinRule s.req)) := by
  rw [exec_renderbin, withTag_of_fits ht]

theorem renderbinRule_of_tooLarge {q : Request P} (h : (8 * q.a_w.toNat : Int) < q.len.toInt) :
    renderbinRule q = raise P .errRange q.len (BitVec.ofNat 32 (8 * q.a_w.toNat)) :=
  if_pos ((lengthTooLarge_iff q).2 h)

theorem renderbinRule_of_within {q : Request P} (h : q.len.toInt ≤ 8 * q.a_w.toNat) :
    renderbinRule q = answerString P q.a (renderLength q) :=
  if_neg (mt (lengthTooLarge_iff q).1 (not_lt.2 h))

/-! ### The automatic length of zero and of a nonzero value -/

theorem setWidth_eq_zero_iff_getLsbD {n : Nat} (v : BitVec n) (m : Nat) :
    v.setWidth m = 0 ↔ ∀ i < m, v.getLsbD i = false := by
  constructor
  · intro h i hi
    simpa [hi] using congrArg (BitVec.getLsbD · i) h
  · intro h
    apply BitVec.eq_of_getLsbD_eq
    intro i hi
    simp [hi, h i hi]

theorem autoLength_of_zero {n : Nat} {v : BitVec n} {m : Nat} (hm : 1 ≤ m)
    (h : v.setWidth m = 0) : autoLength v m = 1 := by
  obtain ⟨hpos, hle, -, htop⟩ := autoLength_spec v hm
  by_contra hne
  have hlow := (setWidth_eq_zero_iff_getLsbD v m).1 h (autoLength v m - 1) (by omega)
  exact absurd (htop hne) (by simp [hlow])

/-- A nonzero value's automatic length ends at a set bit; where the length is 1, that bit is bit 0,
the only one left to be set. -/
theorem getLsbD_autoLength_of_ne_zero {n : Nat} {v : BitVec n} {m : Nat} (hm : 1 ≤ m)
    (h : v.setWidth m ≠ 0) : v.getLsbD (autoLength v m - 1) = true := by
  obtain ⟨-, -, hhigh, htop⟩ := autoLength_spec v hm
  by_cases hone : autoLength v m = 1
  · by_contra hbit
    refine h ((setWidth_eq_zero_iff_getLsbD v m).2 fun i hi => ?_)
    cases i with
    | zero => simpa [hone] using hbit
    | succ i => exact hhigh _ (by omega) hi
  · exact htop hone

/-! ### The two answers -/

/-- Settles O32: the range check, then the string of `renderLength` characters, explicit or
automatic. -/
theorem renderbinAnswersBits : Obligations.RenderbinAnswersBits := by
  unfold Obligations.RenderbinAnswersBits
  intro s ht
  refine ⟨fun hlarge => ⟨s.draws + 1, ?range⟩, fun hwithin => ?string⟩
  case range =>
    rw [exec_renderbin_of_fits ht, renderbinRule_of_tooLarge hlarge]
    rfl
  case string =>
    have hwidth : 1 ≤ 8 * s.req.a_w.toNat := by omega
    obtain ⟨hpos, hle, hsmax, hlt⟩ := renderLength_bounds ht hwithin
    have hchar := portChar_renderString s.req.a hsmax
    refine ⟨renderLength s.req, renderString s.params s.req.a (renderLength s.req), s.draws + 1,
      ?answer, hpos, hle, hsmax, hlt, ?explicit, ?zero, ?nonzero, ?shown, ?rest⟩
    case answer =>
      rw [exec_renderbin_of_fits ht, renderbinRule_of_within hwithin]
      rfl
    case explicit =>
      intro hlen
      rw [renderLength_explicit hlen, Int.toNat_of_nonneg hlen.le]
    case zero =>
      intro hlen hv
      rw [renderLength_automatic hlen, autoLength_of_zero hwidth hv]
    case nonzero =>
      intro hlen hv
      obtain ⟨-, -, hhigh, -⟩ := autoLength_spec s.req.a hwidth
      rw [renderLength_automatic hlen]
      exact ⟨getLsbD_autoLength_of_ne_zero hwidth hv, hhigh⟩
    case shown =>
      intro j hj
      rw [hchar, if_pos hj, bitChar_toNat]
    case rest =>
      intro j hj
      rw [hchar, if_neg (not_lt.2 hj)]

end Sys2Proof.Machine
end

section
/-! The status of a response (`60_exceptions.md` rules R80, R82, R86, R87): a malformed request answers
`ERR_REQ`, and a well-formed one the status its operation's own rule ends with. -/

namespace Sys2Proof.Machine

variable {P : Params}

/-! ### Malformed requests -/

theorem responseOf_of_tag_not_fits {i : Instr} {q : Request P} (hi : ReqPort.a_w ∈ i.reads)
    (ht : ¬ TagFits P q.a_w) (d : Word) :
    responseOf i q d = raise P .errReq (q.a_w.setWidth 32) (BitVec.ofNat 32 P.wmax) := by
  cases i
  case reinterp | reinterpI32 | reinterpF32 | split | bitinc | bitdec | renderbin =>
    exact withTag_of_not_fits ht _
  all_goals exact absurd hi (by decide)

theorem responseOf_of_text_not_fits {q : Request P} (ht : ¬ TextFits P q.s_len) (d : Word) :
    responseOf .parsebin q d =
      raise P .errReq (q.s_len.setWidth 32) (BitVec.ofNat 32 P.smax) :=
  withText_of_not_fits ht _

/-! ### The 4-byte operations -/

/-- On a fitting tag the operations of required width 4 differ only in what they answer once the
width check of rule R82 has passed. -/
theorem responseOf_fourByte {i : Instr}
    (hi : i ∈ [Instr.reinterpI32, .reinterpF32, .split, .bitinc, .bitdec]) {q : Request P}
    (ht : TagFits P q.a_w) (d : Word) :
    ∃ k : Response P, k.status = Status.ok.code ∧ responseOf i q d = withFour q k := by
  cases i
  case reinterpI32 | reinterpF32 | split | bitinc | bitdec =>
    exact ⟨_, rfl, withTag_of_fits ht _⟩
  all_goals exact absurd hi (by decide)

/-! ### The status of each operation's own rule -/

/-- A position of the text that holds no digit (`43_binarystringcodec.md` rule R73). -/
abbrev OffenderAt (q : Request P) (j : Nat) : Prop :=
  (portChar q.s j).toNat ≠ 48 ∧ (portChar q.s j).toNat ≠ 49

theorem exists_first_offender {q : Request P} (h : ∃ j < q.s_len.toNat, OffenderAt q j) :
    ∃ j < q.s_len.toNat, OffenderAt q j ∧
      ∀ k < j, (portChar q.s k).toNat = 48 ∨ (portChar q.s k).toNat = 49 := by
  obtain ⟨hlt, hoff⟩ := Nat.find_spec h
  refine ⟨Nat.find h, hlt, hoff, fun k hk => ?_⟩
  by_contra hdigit
  exact Nat.find_min h hk ⟨hk.trans hlt, not_or.1 hdigit⟩

/-- The status of a well-formed request (`60_exceptions.md` rules R80, R87): the operation's own
conditions, `FAIL_LEN` before `FAIL_DIGIT`. -/
def ownStatus (i : Instr) (q : Request P) : Status :=
  match i with
  | .reinterp => if q.a_w ≠ q.t_w then .errWidth else .ok
  | .reinterpI32 | .reinterpF32 | .split | .bitinc | .bitdec =>
    if q.a_w ≠ 4 then .errWidth else .ok
  | .assemble => .ok
  | .parsebin =>
    if q.len.toInt < q.s_len.toNat then .failLen
    else if ∃ j < q.s_len.toNat, OffenderAt q j then .failDigit
    else .ok
  | .renderbin => if (8 * q.a_w.toNat : Int) < q.len.toInt then .errRange else .ok
  | .reserved9 | .reserved10 | .reserved11 | .reserved12 | .reserved13 | .reserved14
  | .reserved15 => .errOp

theorem ownStatus_ne_errReq (i : Instr) (q : Request P) : (ownStatus i q).code ≠ 6 := by
  cases i
  case reinterp | reinterpI32 | reinterpF32 | split | bitinc | bitdec | parsebin | renderbin =>
    simp only [ownStatus]
    split_ifs <;> decide
  all_goals
    simp only [ownStatus]
    decide

theorem reinterpRule_status (q : Request P) :
    (reinterpRule q).status = (ownStatus .reinterp q).code := by
  simp only [reinterpRule_eq_ite, ownStatus]
  split <;> rfl

theorem fourByte_status {i : Instr}
    (hi : i ∈ [Instr.reinterpI32, .reinterpF32, .split, .bitinc, .bitdec]) {q : Request P}
    (ht : TagFits P q.a_w) (d : Word) :
    (responseOf i q d).status = (if q.a_w ≠ 4 then Status.errWidth else .ok).code := by
  obtain ⟨k, hk, hresp⟩ := responseOf_fourByte hi ht d
  rw [hresp, withFour_eq_ite]
  split
  · rfl
  · exact hk

theorem parsebinRule_status (q : Request P) (d : Word) :
    (parsebinRule q d).status = (ownStatus .parsebin q).code := by
  simp only [ownStatus]
  split_ifs with hlong hoff
  case pos => rw [parsebinRule_of_tooLong hlong]
  case pos =>
    obtain ⟨j, hj, hne, hpre⟩ := exists_first_offender hoff
    rw [parsebinRule_of_within (not_lt.1 hlong),
      scan_requestText_of_offender hj hpre (not_or.2 hne)]
    rfl
  case neg =>
    have hdigits : ∀ k < q.s_len.toNat,
        (portChar q.s k).toNat = 48 ∨ (portChar q.s k).toNat = 49 := by
      intro k hk
      by_contra hdigit
      exact hoff ⟨k, hk, not_or.1 hdigit⟩
    rw [parsebinRule_of_within (not_lt.1 hlong), scan_requestText_of_digits hdigits]
    rfl

theorem renderbinRule_status (q : Request P) :
    (renderbinRule q).status = (ownStatus .renderbin q).code := by
  simp only [ownStatus]
  split
  case isTrue hlarge => rw [renderbinRule_of_tooLarge hlarge, raise_status]
  case isFalse hwithin => rw [renderbinRule_of_within (not_lt.1 hwithin)]; rfl

theorem responseOf_status_of_wellFormed {i : Instr} {q : Request P} (h : WellFormed i q)
    (d : Word) : (responseOf i q d).status = (ownStatus i q).code := by
  obtain ⟨htag, htext⟩ := h
  cases i
  case reinterp =>
    exact (congrArg Response.status (withTag_of_fits (htag (by decide)) _)).trans
      (reinterpRule_status q)
  case reinterpI32 | reinterpF32 | split | bitinc | bitdec =>
    exact fourByte_status (by decide) (htag (by decide)) d
  case parsebin =>
    exact (congrArg Response.status (withText_of_fits (htext rfl) _)).trans
      (parsebinRule_status q d)
  case renderbin =>
    exact (congrArg Response.status (withTag_of_fits (htag (by decide)) _)).trans
      (renderbinRule_status q)
  all_goals rfl

/-! ### One chain for every operation -/

/-- The status of a request, as the chain of conditions of rule R87. -/
def priorityStatus (q : Request P) : BitVec 3 :=
  if 9 ≤ q.op.toNat then 5
  else if q.op.toNat ∉ [4, 7] ∧ ¬ TagFits P q.a_w then 6
  else if q.op.toNat = 7 ∧ ¬ TextFits P q.s_len then 6
  else if q.op.toNat = 0 ∧ q.a_w ≠ q.t_w then 3
  else if q.op.toNat ∈ [1, 2, 3, 5, 6] ∧ q.a_w ≠ 4 then 3
  else if q.op.toNat = 7 ∧ q.len.toInt < q.s_len.toNat then 1
  else if q.op.toNat = 7 ∧ ∃ j < q.s_len.toNat, OffenderAt q j then 2
  else if q.op.toNat = 8 ∧ (8 * q.a_w.toNat : Int) < q.len.toInt then 4
  else 0

theorem priorityStatus_of_tag_not_fits {i : Instr} {q : Request P} (hop : q.op = encodeOp i)
    (hi : ReqPort.a_w ∈ i.reads) (ht : ¬ TagFits P q.a_w) : priorityStatus q = 6 := by
  have hcode : (encodeOp i).toNat < 9 ∧ (encodeOp i).toNat ∉ [4, 7] := by
    revert hi
    cases i <;> decide
  rw [priorityStatus, hop, if_neg (not_le.2 hcode.1), if_pos ⟨hcode.2, ht⟩]

theorem priorityStatus_of_text_not_fits {q : Request P} (hop : q.op = encodeOp .parsebin)
    (ht : ¬ TextFits P q.s_len) : priorityStatus q = 6 := by
  simp [priorityStatus, hop, encodeOp, ht]

theorem priorityStatus_of_wellFormed {i : Instr} {q : Request P} (hop : q.op = encodeOp i)
    (h : WellFormed i q) : priorityStatus q = (ownStatus i q).code := by
  obtain ⟨htag, htext⟩ := h
  unfold priorityStatus
  rw [hop]
  cases i
  case reinterp | reinterpI32 | reinterpF32 | split | bitinc | bitdec | renderbin =>
    have ht : TagFits P q.a_w := htag (by decide)
    simp [encodeOp, ownStatus, ht, apply_ite Status.code]
    rfl
  case parsebin =>
    have ht : TextFits P q.s_len := htext rfl
    simp [encodeOp, ownStatus, ht, apply_ite Status.code]
    rfl
  all_goals rfl

theorem responseOf_status_eq_priorityStatus {i : Instr} {q : Request P}
    (hop : q.op = encodeOp i) (d : Word) : (responseOf i q d).status = priorityStatus q := by
  by_cases htag : ReqPort.a_w ∈ i.reads → TagFits P q.a_w
  · by_cases htext : i = .parsebin → TextFits P q.s_len
    · rw [responseOf_status_of_wellFormed ⟨htag, htext⟩,
        priorityStatus_of_wellFormed hop ⟨htag, htext⟩]
    · obtain ⟨rfl, ht⟩ := Classical.not_imp.1 htext
      rw [responseOf_of_text_not_fits ht, priorityStatus_of_text_not_fits hop ht, raise_status,
        Status.code]
  · obtain ⟨hi, ht⟩ := Classical.not_imp.1 htag
    rw [responseOf_of_tag_not_fits hi ht, priorityStatus_of_tag_not_fits hop hi ht, raise_status,
      Status.code]

theorem step_status {s t : State} (h : step s = .next t) :
    t.rsp.status = priorityStatus s.req := by
  obtain rfl := eq_answer_of_step h
  obtain ⟨i, hop, hi⟩ := op_cases s.req.op
  rw [hi]
  exact responseOf_status_eq_priorityStatus hop s.draw

/-- `FAIL_DIGIT` comes from PARSEBIN alone, on a well-formed request within the limit. -/
theorem failDigit_conditions {q : Request P} (h : priorityStatus q = 2) :
    q.op.toNat = 7 ∧ TextFits P q.s_len ∧ q.s_len.toNat ≤ q.len.toInt ∧
      ∃ j < q.s_len.toNat, OffenderAt q j := by
  unfold priorityStatus at h
  split_ifs at h with _ _ htext _ _ hlong hoff <;> simp at h
  obtain ⟨hop, hex⟩ := hoff
  exact ⟨hop, by_contra fun ht => htext ⟨hop, ht⟩, not_lt.1 fun hl => hlong ⟨hop, hl⟩, hex⟩

/-- Settles O10: the chain is the status of every response, and where it gives `FAIL_DIGIT`, PARSEBIN
answers its first offender. -/
theorem statusPriority : Obligations.StatusPriority := by
  unfold Obligations.StatusPriority
  intro s t h
  have hstatus := step_status h
  refine ⟨fun hfail => ?_, hstatus⟩
  obtain ⟨hop, htext, hwithin, hex⟩ := failDigit_conditions (hstatus.symm.trans hfail)
  obtain ⟨j, hj, ⟨hne48, hne49⟩, hpre⟩ := exists_first_offender hex
  obtain ⟨n, hexec, -, -, hcode⟩ :=
    parsebinReportsFirstOffender s j htext hwithin hj hne48 hne49 hpre
  have hparse : decodeOp s.req.op = .parsebin := by
    rw [BitVec.eq_of_toNat_eq (y := 7#4) hop, decodeOp_7]
  rw [step, hparse, hexec] at h
  obtain rfl := Host.Outcome.next.inj h
  exact ⟨j, hj, hne48, hne49, hpre, (setWidth_vw_toNat _).trans hcode⟩

/-- Settles O6: each clause of R86 raises `ERR_REQ`, and no operation's own rule does. -/
theorem malformedRequestsRaiseErrReq : Obligations.MalformedRequestsRaiseErrReq := by
  unfold Obligations.MalformedRequestsRaiseErrReq
  refine ⟨fun i s hi ht => ⟨s.draws + 1, ?tag⟩, fun s ht => ⟨s.draws + 1, ?text⟩, ?wellFormed⟩
  case tag =>
    have hreads : ReqPort.a_w ∈ i.reads := by
      revert hi
      cases i <;> decide
    have hnot : ¬ TagFits s.params s.req.a_w := by omega
    rw [exec_eq, responseOf_of_tag_not_fits hreads hnot]
    rfl
  case text =>
    rw [exec_eq, responseOf_of_text_not_fits (not_le.2 ht)]
    rfl
  case wellFormed =>
    intro i s htag htext t h
    have hreads : ReqPort.a_w ∈ i.reads → i ∉ [Instr.assemble, .parsebin] := by
      cases i <;> decide
    obtain rfl := eq_answer_of_exec h
    rw [answer_rsp, responseOf_status_of_wellFormed ⟨htag ∘ hreads, htext⟩]
    exact ownStatus_ne_errReq i s.req

/-- Settles O7: on a fitting tag REINTERP checks against `t_w` and the 4-byte operations against 4. -/
theorem widthMismatchRaisesErrWidth : Obligations.WidthMismatchRaisesErrWidth := by
  unfold Obligations.WidthMismatchRaisesErrWidth
  rintro i s required (⟨rfl, rfl⟩ | ⟨hi, rfl⟩) ht
  · rw [exec_reinterp_of_fits ht]
    refine ⟨fun hne => ⟨s.draws + 1, ?_⟩, fun heq => ⟨_, rfl, ?_⟩⟩
    · rw [reinterpRule_of_ne hne]
      rfl
    · rw [answer_rsp, reinterpRule_of_eq heq, answerValue_status]
  · obtain ⟨k, hk, hresp⟩ := responseOf_fourByte hi ht s.draw
    rw [exec_eq, hresp]
    refine ⟨fun hne => ⟨s.draws + 1, ?_⟩, fun heq => ⟨_, rfl, ?_⟩⟩
    · rw [withFour_of_ne hne]
      rfl
    · rw [answer_rsp, withFour_of_four heq, hk, Status.code]

end Sys2Proof.Machine
end

section
/-! Legal responses: each of the five shapes is legal, so whatever the block answers is. The statements
about errors and about single statuses follow (`60_exceptions.md` rules R80, R88). -/

namespace Sys2Proof.Machine

variable {P : Params}

theorem code_ne_seven (e : Status) : e.code ≠ 7 := by
  cases e <;> decide

/-! ### The five shapes are legal -/

theorem legal_raise {e : Status} (he : e.isErr = true) (x y : Word) : (raise P e x y).Legal where
  status_ne := code_ne_seven e
  err_rest _ := rfl
  ok_items hle := absurd ((three_le_code_iff e).2 he) (by simp only [raise_status] at hle; omega)
  tag_le := Nat.zero_le _
  r_lt := by simp
  sign_lt := by simp [raise, Response.zero]
  exp_lt := by simp [raise, Response.zero]
  man_lt := by simp [raise, Response.zero]
  len_le := Nat.zero_le _
  chars j hj := absurd hj (Nat.not_lt_zero j)
  padding j _ := portChar_zero j

/-- A response that carries a value, with one of the three statuses of an ordinary result. -/
theorem legal_value {e : Status} (he : e.isErr = false) {w : BitVec 8} {v : BitVec P.vw}
    (hw : w.toNat ≤ P.wmax) (hv : v.toNat < 2 ^ (8 * w.toNat)) :
    Response.Legal { answerValue w v with status := e.code } where
  status_ne := code_ne_seven e
  err_rest h := absurd ((three_le_code_iff e).1 h) (by simp [he])
  ok_items _ := ⟨rfl, rfl⟩
  tag_le := hw
  r_lt := hv
  sign_lt := by simp [answerValue, Response.zero]
  exp_lt := by simp [answerValue, Response.zero]
  man_lt := by simp [answerValue, Response.zero]
  len_le := Nat.zero_le _
  chars j hj := absurd hj (Nat.not_lt_zero j)
  padding j _ := portChar_zero j

theorem legal_answerFields (p : Word) : (answerFields P p).Legal where
  status_ne := code_ne_seven .ok
  err_rest h := absurd ((three_le_code_iff .ok).1 h) (by decide)
  ok_items _ := ⟨rfl, rfl⟩
  tag_le := Nat.zero_le _
  r_lt := by simp [answerFields, Response.zero]
  sign_lt := by
    rw [answerFields, BitVec.toNat_setWidth_of_le (by decide)]
    exact (signField p).isLt
  exp_lt := by
    rw [answerFields, BitVec.toNat_setWidth_of_le (by decide)]
    exact (exponentField p).isLt
  man_lt := by
    rw [answerFields, BitVec.toNat_setWidth_of_le (by decide)]
    exact (mantissaField p).isLt
  len_le := Nat.zero_le _
  chars j hj := absurd hj (Nat.not_lt_zero j)
  padding j _ := portChar_zero j

theorem answerString_o_len_toNat (v : BitVec P.vw) {k : Nat} (hk : k < 2 ^ 16) :
    (answerString P v k).o_len.toNat = k :=
  (BitVec.toNat_ofNat k 16).trans (Nat.mod_eq_of_lt hk)

theorem legal_answerString (v : BitVec P.vw) {k : Nat} (hk : k ≤ P.smax) (hk' : k < 2 ^ 16) :
    (answerString P v k).Legal where
  status_ne := code_ne_seven .ok
  err_rest h := absurd ((three_le_code_iff .ok).1 h) (by decide)
  ok_items _ := ⟨rfl, rfl⟩
  tag_le := Nat.zero_le _
  r_lt := by simp [answerString, Response.zero]
  sign_lt := by simp [answerString, Response.zero]
  exp_lt := by simp [answerString, Response.zero]
  man_lt := by simp [answerString, Response.zero]
  len_le := (answerString_o_len_toNat v hk').trans_le hk
  chars j hj := by
    rw [answerString_o_len_toNat v hk'] at hj
    rw [answerString, portChar_renderString v hk, if_pos hj, bitChar_toNat]
    split <;> simp
  padding j hj := by
    rw [answerString_o_len_toNat v hk'] at hj
    rw [answerString, portChar_renderString v hk, if_neg (not_lt.2 hj)]

theorem Response.Shape.legal {x : Response P} (h : x.Shape) : x.Legal := by
  cases h with
  | raised e x y he => exact legal_raise he x y
  | value w v hw =>
    have hv : (portValue w.toNat v).toNat < 2 ^ (8 * w.toNat) := by
      rw [portValue_toNat hw.2]
      exact Nat.mod_lt _ (by positivity)
    exact legal_value (e := .ok) rfl hw.2 hv
  | pattern e p he =>
    refine legal_value he P.wmax_ge ?_
    rw [setWidth_vw_toNat]
    exact p.isLt
  | fields p => exact legal_answerFields p
  | string v k hk => exact legal_answerString v hk.2.1 hk.2.2

theorem responseOf_legal (i : Instr) (q : Request P) (d : Word) : (responseOf i q d).Legal :=
  (responseOf_shape i q d).legal

/-- Settles O45: whatever a step answers has one of the five shapes, and each is legal. -/
theorem stepLeavesLegalResponse : Obligations.StepLeavesLegalResponse := by
  unfold Obligations.StepLeavesLegalResponse
  intro s t h
  obtain rfl := eq_answer_of_step h
  exact responseOf_legal _ _ _

/-- Settles O8: both clauses are clauses of legality. -/
theorem errorsCarryOnlyTheirItems : Obligations.ErrorsCarryOnlyTheirItems := by
  unfold Obligations.ErrorsCarryOnlyTheirItems
  intro i s t h
  obtain rfl := eq_answer_of_exec h
  have hlegal := responseOf_legal i s.req s.draw
  exact ⟨hlegal.err_rest, hlegal.ok_items⟩

/-- Settles O46: the response at reset is a raised `ERR_REQ`. -/
theorem resetResponseIsLegal : Obligations.ResetResponseIsLegal :=
  legal_raise (e := .errReq) rfl 0 8

/-! ### The statuses of each operation -/

/-- A well-formed request ends with a status of its operation's own (`60_exceptions.md` rule R80). -/
theorem ownStatus_mem_statusesOf (i : Instr) (q : Request P) : ownStatus i q ∈ statusesOf i := by
  cases i
  case reinterp | reinterpI32 | reinterpF32 | split | bitinc | bitdec | parsebin | renderbin =>
    simp only [ownStatus]
    split_ifs <;> decide
  all_goals
    simp only [ownStatus]
    decide

theorem responseOf_status_mem (i : Instr) (q : Request P) (d : Word) :
    ∃ e ∈ statusesOf i, (responseOf i q d).status = e.code := by
  by_cases htag : ReqPort.a_w ∈ i.reads → TagFits P q.a_w
  · by_cases htext : i = .parsebin → TextFits P q.s_len
    · exact ⟨_, ownStatus_mem_statusesOf i q, responseOf_status_of_wellFormed ⟨htag, htext⟩ d⟩
    · obtain ⟨rfl, ht⟩ := Classical.not_imp.1 htext
      exact ⟨.errReq, by decide, by rw [responseOf_of_text_not_fits ht, raise_status]⟩
  · obtain ⟨hi, ht⟩ := Classical.not_imp.1 htag
    have hmem : Status.errReq ∈ statusesOf i := by
      revert hi
      cases i <;> decide
    exact ⟨.errReq, hmem, by rw [responseOf_of_tag_not_fits hi ht, raise_status]⟩

/-- Settles O9: a malformed request ends with `ERR_REQ`, a well-formed one with a status of its
operation's own rule. -/
theorem operationsEndWithTheirStatuses : Obligations.OperationsEndWithTheirStatuses := by
  unfold Obligations.OperationsEndWithTheirStatuses
  refine ⟨rfl, fun i s t h => ?_⟩
  obtain rfl := eq_answer_of_exec h
  exact ⟨responseOf_status_mem i s.req s.draw, (responseOf_legal i s.req s.draw).status_ne⟩

end Sys2Proof.Machine
end

section
/-! The block as one function of request and draw (`30_encoding.md` rule R30): every step answers it,
every way to drive a request port shows it, and the draw reaches nothing but `r` under `FAIL_LEN`. -/

namespace Sys2Proof.Machine

variable {P : Params}

/-! ### A step evaluates the block -/

theorem step_eq (s : State) : step s = .next (s.answer (evaluate s.req s.draw)) := by
  rw [evaluate_eq_responseOf]
  exact exec_eq _ s

theorem eq_answer_evaluate_of_step {s t : State} (h : step s = .next t) :
    t = s.answer (evaluate s.req s.draw) := by
  rw [step_eq] at h
  exact (Host.Outcome.next.inj h).symm

theorem evaluate_draw (q : Request P) (d d' : Word) :
    evaluate q d' =
      if (evaluate q d).status = 1 then { evaluate q d with r := d'.setWidth P.vw }
      else evaluate q d := by
  simp only [evaluate_eq_responseOf]
  exact responseOf_draw _ q d d'

/-- The request a step ended with, evaluated again, shows the step's response but for the draw. -/
theorem evaluate_again {s t : State} (h : step s = .next t) :
    evaluate t.req t.draw =
      if t.rsp.status = 1 then { t.rsp with r := t.draw.setWidth t.params.vw } else t.rsp := by
  obtain rfl := eq_answer_evaluate_of_step h
  exact evaluate_draw s.req s.draw _

theorem settled_of_step {s t : State} (h : step s = .next t) : t.Settled := by
  obtain rfl := eq_answer_evaluate_of_step h
  exact ⟨s.draw, rfl⟩

theorem settled_present (s : State) (q : Request s.params) : (s.present q).Settled := ⟨s.draw, rfl⟩

/-- Settledness is kept along every run: the two ways to a later state both settle it. -/
theorem Later.settled {s t : State} (h : Later s t) (hs : s.Settled) : t.Settled := by
  cases h with
  | now => exact hs
  | step _ hstep => exact settled_of_step hstep
  | present q _ => exact settled_present _ q

/-- Settles O40: the outline and the selected operation's own meaning answer alike. -/
theorem stepEvaluatesTheBlock : Obligations.StepEvaluatesTheBlock := by
  unfold Obligations.StepEvaluatesTheBlock
  intro s
  exact ⟨s.draws + 1, step_eq s⟩

/-- Settles O41: `exec` answers the state with one response written. -/
theorem everyOperationEnds : Obligations.EveryOperationEnds := by
  unfold Obligations.EveryOperationEnds
  intro i s
  exact ⟨responseOf i s.req s.draw, s.draws + 1, exec_eq i s⟩

/-- Settles O42: both evaluations write the counter's successor. -/
theorem eachEvaluationSpendsOneDraw : Obligations.EachEvaluationSpendsOneDraw := by
  unfold Obligations.EachEvaluationSpendsOneDraw
  refine ⟨fun s t h => ?_, present_draws⟩
  obtain rfl := eq_answer_of_step h
  exact answer_draws _ _

/-- Settles O44: a step reads nothing but the request and the counter, so the response left on the
ports leaves no trace. -/
theorem earlierOperationsLeaveNoTrace : Obligations.EarlierOperationsLeaveNoTrace := by
  unfold Obligations.EarlierOperationsLeaveNoTrace
  intro s q
  exact ⟨_, s.draws + 1, step_eq s, s.draws + 1 + 1, step_eq _, step_eq _⟩

/-- Settles O43: the second step evaluates the same request, with another draw. -/
theorem sameRequestSameResponse : Obligations.SameRequestSameResponse := by
  unfold Obligations.SameRequestSameResponse
  intro s t h
  exact ⟨t.draw, t.draws + 1, by rw [step_eq, evaluate_again h]⟩

/-- Settles O47: the draw that answers the step is its own. -/
theorem stepSettles : Obligations.StepSettles := by
  unfold Obligations.StepSettles
  intro s t h
  exact settled_of_step h

/-- Settles O48: with every request port 0 the tag of REINTERP does not fit, and any draw gives
`ERR_REQ`. -/
theorem resetIsSettled : Obligations.ResetIsSettled := ⟨0, rfl⟩

/-- Settles O50: each way to drive a request port is `State.present` of some request. -/
theorem responseFollowsRequest : Obligations.ResponseFollowsRequest := by
  unfold Obligations.ResponseFollowsRequest
  intro s
  exact ⟨fun q => ⟨present_req s q, settled_present s q⟩, fun _ => ⟨rfl, settled_present s _⟩,
    settled_present s _, settled_present s _, fun _ => settled_present s _,
    fun _ _ => ⟨rfl, settled_present s _⟩⟩

/-- Settles O51: settledness along a run, and one request evaluated with two draws. -/
theorem everyInstantIsSettled : Obligations.EveryInstantIsSettled := by
  unfold Obligations.EveryInstantIsSettled
  refine ⟨fun s t hs hlater => hlater.settled hs, fun s t h => ?_⟩
  exact ⟨t.draw, evaluate_again h⟩

/-- Settles O49: the constraints travel with the parameters. -/
theorem parametersObeyTable : Obligations.ParametersObeyTable := by
  unfold Obligations.ParametersObeyTable
  refine ⟨fun s => ?_, rfl, rfl, rfl, rfl⟩
  exact ⟨s.params.wmax_ge, s.params.wmax_le, rfl, s.params.smax_ge, s.params.smax_le,
    s.params.charW_ge, s.params.charW_le⟩

/-! ### Reserved codes -/

theorem evaluate_of_reserved {q : Request P} (h : 9 ≤ q.op.toNat) (d : Word) :
    evaluate q d = reservedOp q :=
  if_pos h

/-- Settles O5: the outline turns a reserved code away first, and the seven rows answer alike. -/
theorem reservedCodesRaiseErrOp : Obligations.ReservedCodesRaiseErrOp := by
  unfold Obligations.ReservedCodesRaiseErrOp
  refine ⟨fun s hop => ⟨s.draws + 1, ?_⟩, fun i hi s => ⟨s.draws + 1, ?_⟩⟩
  · rw [step_eq, evaluate_of_reserved hop]
    rfl
  · have hcode : 9 ≤ (encodeOp i).toNat :=
      not_lt.1 fun hlt => (encodeOp_toNat_lt_nine_iff i).1 hlt hi
    rw [exec_reserved hcode]
    rfl

end Sys2Proof.Machine
end

section
/-! The byte form of a code (the model's choice) and the request encoding of a call
(`30_encoding.md` rule R41) are read back. -/

namespace Sys2Proof.Machine

theorem encodeOp_decodeOp (op : BitVec 4) : encodeOp (decodeOp op) = op := by
  obtain ⟨i, rfl, hi⟩ := op_cases op
  rw [hi]

/-! ### Table words -/

theorem toNat_byte {w : Nat} (h : w < 256) : (BitVec.ofNat 8 w).toNat = w :=
  (BitVec.toNat_ofNat w 8).trans (Nat.mod_eq_of_lt h)

theorem decodeTableWord_of_lt {w : Nat} (h : w < 16) (nbits : Nat) :
    decodeTableWord nbits w = some (decodeOp (BitVec.ofNat 4 w)) := by
  have hbyte := toNat_byte (h.trans (by decide))
  have hlow : (BitVec.ofNat 8 w).setWidth 4 = BitVec.ofNat 4 w := by
    rw [← BitVec.ofNat_toNat, hbyte]
  rw [decodeTableWord, if_neg (by omega), decode_byte (by omega), hlow]

theorem decodeTableWord_of_ge {w : Nat} (h : 16 ≤ w) (nbits : Nat) :
    decodeTableWord nbits w = none := by
  unfold decodeTableWord
  split
  · rfl
  · rename_i hlt
    rw [decode_refuses (by rwa [toNat_byte (not_le.1 hlt)])]

/-- Settles O2: the byte form covers the codes below 16 and nothing else, and the step decodes the code
that was placed. -/
theorem placedCodeRuns : Obligations.PlacedCodeRuns := by
  unfold Obligations.PlacedCodeRuns
  refine ⟨fun s nbits w i h => ?_, fun nbits w h => decodeTableWord_of_lt h nbits,
    fun nbits w h => decodeTableWord_of_ge h nbits⟩
  rcases Nat.lt_or_ge w 16 with hlt | hge
  · rw [decodeTableWord_of_lt hlt] at h
    rw [step, withFetchWord_op, Option.some.inj h]
  · rw [decodeTableWord_of_ge hge] at h
    exact absurd h (by simp)

/-- Settles O3: the byte of a code has its upper bits 0, so the code is read back from it. -/
theorem codeRoundTrip : Obligations.CodeRoundTrip := by
  unfold Obligations.CodeRoundTrip
  refine ⟨fun i rest => ?_, encodeOp_decodeOp⟩
  have hbyte : ((encodeOp i).setWidth 8).toNat = (encodeOp i).toNat :=
    BitVec.toNat_setWidth_of_le (by decide)
  have hlow : ((encodeOp i).setWidth 8).setWidth 4 = encodeOp i := by
    rw [BitVec.setWidth_setWidth_of_le _ (by decide), BitVec.setWidth_eq]
  have hread := decode_byte (hbyte.trans_lt (encodeOp i).isLt) rest
  rwa [hlow, decodeOp_encodeOp] at hread

/-! ### Calls -/

/-- The request read back from a call agrees with the first one on every port read: each port is
either kept or not read. -/
theorem seenAlike_encodeCall_decodeCall {P : Params} (q : Request P) :
    SeenAlike (decodeOp q.op) q (encodeCall (decodeCall q)) := by
  obtain ⟨i, hop, hi⟩ := op_cases q.op
  unfold decodeCall
  rw [hi]
  intro p hp
  by_cases hpop : p = .op
  · subst hpop
    cases i <;> exact hop
  · cases i <;> simp only [Instr.reads, List.mem_cons, List.not_mem_nil, or_false, hpop,
      false_or] at hp
    all_goals rcases hp with rfl | rfl | rfl <;> rfl

/-- Settles O4: the encoding keeps every operand, and decoding reads the ports the encoding wrote. -/
theorem callRoundTrip : Obligations.CallRoundTrip := by
  unfold Obligations.CallRoundTrip
  intro P
  refine ⟨fun c => ?_, seenAlike_encodeCall_decodeCall⟩
  cases c <;> simp [encodeCall, decodeCall]

end Sys2Proof.Machine
end

section
/-! Two instances of the block (`00_scope.md` rule R5): requests that an operation cannot tell apart are
answered alike up to padding. One lemma per response shape, one per check, one per operation. -/

namespace Sys2Proof.Machine

variable {P Q : Params}

/-! ### Responses that agree -/

theorem agree_raise (e : Status) (x y : Word) : (raise P e x y).Agree (raise Q e x y) where
  status := rfl
  r := by simp
  r_w := rfl
  r_sign := rfl
  r_exp := rfl
  r_man := rfl
  o_len := rfl
  o j hj := absurd hj (Nat.not_lt_zero j)
  e_a := rfl
  e_b := rfl

theorem agree_value (e : Status) (w : BitVec 8) {v : BitVec P.vw} {v' : BitVec Q.vw}
    (h : v.toNat = v'.toNat) :
    Response.Agree { answerValue w v with status := e.code }
      { answerValue w v' with status := e.code } where
  status := rfl
  r := h
  r_w := rfl
  r_sign := rfl
  r_exp := rfl
  r_man := rfl
  o_len := rfl
  o j hj := absurd hj (Nat.not_lt_zero j)
  e_a := rfl
  e_b := rfl

/-- A pattern fits every value port, so two instances carry the same number. -/
theorem agree_pattern (e : Status) (p : Word) :
    Response.Agree { answerPattern P p with status := e.code }
      { answerPattern Q p with status := e.code } :=
  agree_value e 4 ((setWidth_vw_toNat p).trans (setWidth_vw_toNat p).symm)

theorem agree_answerPattern (p : Word) : (answerPattern P p).Agree (answerPattern Q p) :=
  agree_pattern .ok p

theorem agree_answerFields (p : Word) : (answerFields P p).Agree (answerFields Q p) where
  status := rfl
  r := by simp [answerFields, Response.zero]
  r_w := rfl
  r_sign := rfl
  r_exp := rfl
  r_man := rfl
  o_len := rfl
  o j hj := absurd hj (Nat.not_lt_zero j)
  e_a := rfl
  e_b := rfl

theorem agree_answerString {v : BitVec P.vw} {v' : BitVec Q.vw} {k : Nat} (hP : k ≤ P.smax)
    (hQ : k ≤ Q.smax) (hk : k < 2 ^ 16) (h : ∀ i < k, v.getLsbD i = v'.getLsbD i) :
    (answerString P v k).Agree (answerString Q v' k) where
  status := rfl
  r := by simp [answerString, Response.zero]
  r_w := rfl
  r_sign := rfl
  r_exp := rfl
  r_man := rfl
  o_len := rfl
  o j hj := by
    rw [answerString_o_len_toNat v hk] at hj
    rw [answerString, answerString, portChar_renderString v hP, portChar_renderString v' hQ,
      if_pos hj, if_pos hj, bitChar_toNat, bitChar_toNat, h _ (by omega)]
  e_a := rfl
  e_b := rfl

/-! ### The width check -/

theorem agree_withFour {q : Request P} {q' : Request Q} (htag : q.a_w = q'.a_w) {k : Response P}
    {k' : Response Q} (h : q.a_w = 4 → k.Agree k') : (withFour q k).Agree (withFour q' k') := by
  by_cases hfour : q.a_w = 4
  · rw [withFour_of_four hfour, withFour_of_four (htag ▸ hfour)]
    exact h hfour
  · rw [withFour_of_ne hfour, withFour_of_ne (htag ▸ hfour), htag]
    exact agree_raise _ _ _

/-! ### What two requests share -/

/-- The low bits that count are the same bits. -/
theorem getLsbD_eq_of_mod_eq {m n k : Nat} {v : BitVec m} {v' : BitVec n}
    (h : v.toNat % 2 ^ k = v'.toNat % 2 ^ k) {i : Nat} (hi : i < k) :
    v.getLsbD i = v'.getLsbD i := by
  have hbit := congrArg (Nat.testBit · i) h
  simpa [Nat.testBit_mod_two_pow, hi, BitVec.testBit_toNat] using hbit

theorem portPattern_eq_of_mod_eq {v : BitVec P.vw} {v' : BitVec Q.vw}
    (h : v.toNat % 2 ^ 32 = v'.toNat % 2 ^ 32) : portPattern v = portPattern v' :=
  BitVec.eq_of_toNat_eq (by simpa [portPattern] using h)

theorem autoLength_congr {m n : Nat} {v : BitVec m} {v' : BitVec n} :
    ∀ {k : Nat}, (∀ i < k, v.getLsbD i = v'.getLsbD i) → autoLength v k = autoLength v' k
  | 0, _ => rfl
  | 1, _ => rfl
  | k + 2, h => by
    rw [autoLength, autoLength, h (k + 1) (by omega),
      autoLength_congr (k := k + 1) fun i hi => h i (by omega)]

/-- What an operation that reads the value port shares: the tag, and the value's own bits. -/
structure SameValue (q : Request P) (q' : Request Q) : Prop where
  tag : q.a_w = q'.a_w
  bits : q.a.toNat % 2 ^ (8 * q.a_w.toNat) = q'.a.toNat % 2 ^ (8 * q.a_w.toNat)

theorem sameValue_of_seenAlike {i : Instr} {q : Request P} {q' : Request Q}
    (h : SeenAlike i q q') (ha : ReqPort.a ∈ i.reads) (htag : ReqPort.a_w ∈ i.reads) :
    SameValue q q' := by
  have hw : q.a_w = q'.a_w := h .a_w htag
  have hv : q.a.toNat % 2 ^ (8 * q.a_w.toNat) = q'.a.toNat % 2 ^ (8 * q'.a_w.toNat) := h .a ha
  exact ⟨hw, hw ▸ hv⟩

theorem SameValue.pattern {q : Request P} {q' : Request Q} (h : SameValue q q')
    (hfour : q.a_w = 4) : portPattern q.a = portPattern q'.a := by
  have hv := h.bits
  rw [hfour] at hv
  exact portPattern_eq_of_mod_eq hv

/-! ### The operations -/

/-- A 4-byte operation answers a function of the pattern. -/
theorem agree_fourByte {q : Request P} {q' : Request Q} (h : SameValue q q')
    {f : Word → Response P} {f' : Word → Response Q} (hf : ∀ p, (f p).Agree (f' p)) :
    (withFour q (f (portPattern q.a))).Agree (withFour q' (f' (portPattern q'.a))) := by
  refine agree_withFour h.tag fun hfour => ?_
  rw [h.pattern hfour]
  exact hf _

theorem agree_reinterpRule {q : Request P} {q' : Request Q} (h : SameValue q q')
    (ht : q.t_w = q'.t_w) (hP : TagFits P q.a_w) (hQ : TagFits Q q'.a_w) :
    (reinterpRule q).Agree (reinterpRule q') := by
  obtain ⟨hw, hv⟩ := h
  by_cases heq : q.a_w = q.t_w
  · rw [reinterpRule_of_eq heq, reinterpRule_of_eq (hw ▸ ht ▸ heq), ht]
    have hvalue : (portValue q.a_w.toNat q.a).toNat = (portValue q'.a_w.toNat q'.a).toNat := by
      rw [portValue_toNat hP.2, portValue_toNat hQ.2, ← hw, hv]
    exact agree_value .ok _ hvalue
  · rw [reinterpRule_of_ne heq, reinterpRule_of_ne (hw ▸ ht ▸ heq), ht, hw]
    exact agree_raise _ _ _

theorem agree_renderbinRule {q : Request P} {q' : Request Q} (h : SameValue q q')
    (hlen : q.len = q'.len) (hP : TagFits P q.a_w) (hQ : TagFits Q q'.a_w) :
    (renderbinRule q).Agree (renderbinRule q') := by
  obtain ⟨hw, hv⟩ := h
  have hbits : ∀ i < 8 * q.a_w.toNat, q.a.getLsbD i = q'.a.getLsbD i :=
    fun i hi => getLsbD_eq_of_mod_eq hv hi
  by_cases hlarge : (8 * q.a_w.toNat : Int) < q.len.toInt
  · rw [renderbinRule_of_tooLarge hlarge, renderbinRule_of_tooLarge (hw ▸ hlen ▸ hlarge), hlen,
      hw]
    exact agree_raise _ _ _
  · have hwithin := not_lt.1 hlarge
    have hwithin' : q'.len.toInt ≤ 8 * q'.a_w.toNat := hw ▸ hlen ▸ hwithin
    have hlength : renderLength q = renderLength q' := by
      unfold renderLength requestLimit valueBits
      rw [← hw, ← hlen, autoLength_congr hbits]
    obtain ⟨-, hle, hsP, hlt⟩ := renderLength_bounds hP hwithin
    obtain ⟨-, -, hsQ, -⟩ := renderLength_bounds hQ hwithin'
    rw [renderbinRule_of_within hwithin, renderbinRule_of_within hwithin', ← hlength]
    exact agree_answerString hsP (hlength ▸ hsQ) hlt fun i hi => hbits i (by omega)

/-- A scan with its offender as a 32-bit code point: all a response shows of it. -/
def Scan.codePoint {w : Nat} : Scan w → Scan 32
  | .value acc => .value acc
  | .offender c => .offender (c.setWidth 32)

/-- The scan reads its characters as code points, whatever their width. -/
theorem scan_codePoint {w : Nat} (hw : w ≤ 32) (acc : Word) (cs : List (BitVec w)) :
    scan acc (cs.map (BitVec.setWidth 32)) = (scan acc cs).codePoint := by
  induction cs generalizing acc with
  | nil => rfl
  | cons c cs ih =>
    have hdigit : isDigit (c.setWidth 32) = isDigit c := by
      simp only [isDigit, BitVec.toNat_setWidth_of_le hw]
    have hpush : pushDigit acc (c.setWidth 32) = pushDigit acc c := by
      simp [pushDigit]
    rw [List.map_cons, scan, scan, hdigit, hpush, ih]
    split <;> rfl

theorem agree_scanResponse {x : Scan P.charW} {y : Scan Q.charW} (h : x.codePoint = y.codePoint) :
    (scanResponse P x).Agree (scanResponse Q y) := by
  cases x <;> cases y <;> simp only [Scan.codePoint, Scan.value.injEq, Scan.offender.injEq,
    reduceCtorEq] at h
  case value.value acc acc' => exact h ▸ agree_answerPattern acc
  case offender.offender c c' =>
    simp only [scanResponse, h]
    exact agree_pattern .failDigit _

theorem agree_parsebinRule {q : Request P} {q' : Request Q} (hlen : q.len = q'.len)
    (hn : q.s_len = q'.s_len)
    (htext : (requestText q).map BitVec.toNat = (requestText q').map BitVec.toNat) (d : Word) :
    (parsebinRule q d).Agree (parsebinRule q' d) := by
  by_cases hlong : q.len.toInt < q.s_len.toNat
  · rw [parsebinRule_of_tooLong hlong, parsebinRule_of_tooLong (hlen ▸ hn ▸ hlong)]
    exact agree_pattern .failLen d
  · have hwithin := not_lt.1 hlong
    have hcodes : (requestText q).map (BitVec.setWidth 32) =
        (requestText q').map (BitVec.setWidth 32) := by
      have h := congrArg (List.map (BitVec.ofNat 32)) htext
      simpa [Function.comp_def] using h
    rw [parsebinRule_of_within hwithin, parsebinRule_of_within (hlen ▸ hn ▸ hwithin)]
    refine agree_scanResponse ?_
    rw [← scan_codePoint P.charW_le, ← scan_codePoint Q.charW_le, hcodes]

/-- Well-formed requests that an operation cannot tell apart are answered alike. -/
theorem responseOf_agree {i : Instr} {q : Request P} {q' : Request Q} (hq : WellFormed i q)
    (hq' : WellFormed i q') (h : SeenAlike i q q') (d : Word) :
    (responseOf i q d).Agree (responseOf i q' d) := by
  obtain ⟨htag, htext⟩ := hq
  obtain ⟨htag', htext'⟩ := hq'
  cases i
  case reinterp =>
    have hP := htag (by decide)
    have hQ := htag' (by decide)
    rw [responseOf, responseOf, withTag_of_fits hP, withTag_of_fits hQ]
    exact agree_reinterpRule (sameValue_of_seenAlike h (by decide) (by decide))
      (h .t_w (by decide)) hP hQ
  case reinterpI32 | reinterpF32 | bitinc | bitdec =>
    rw [responseOf, responseOf, withTag_of_fits (htag (by decide)),
      withTag_of_fits (htag' (by decide))]
    exact agree_fourByte (sameValue_of_seenAlike h (by decide) (by decide))
      fun p => agree_answerPattern _
  case split =>
    rw [responseOf, responseOf, withTag_of_fits (htag (by decide)),
      withTag_of_fits (htag' (by decide))]
    exact agree_fourByte (sameValue_of_seenAlike h (by decide) (by decide)) agree_answerFields
  case assemble =>
    have hs : q.f_sign = q'.f_sign := h .f_sign (by decide)
    have he : q.f_exp = q'.f_exp := h .f_exp (by decide)
    have hm : q.f_man = q'.f_man := h .f_man (by decide)
    rw [responseOf, responseOf, assembleRule, assembleRule, hs, he, hm]
    exact agree_answerPattern _
  case parsebin =>
    rw [responseOf, responseOf, withText_of_fits (htext rfl), withText_of_fits (htext' rfl)]
    exact agree_parsebinRule (h .len (by decide)) (h .s_len (by decide)) (h .s (by decide)) d
  case renderbin =>
    have hP := htag (by decide)
    have hQ := htag' (by decide)
    rw [responseOf, responseOf, withTag_of_fits hP, withTag_of_fits hQ]
    exact agree_renderbinRule (sameValue_of_seenAlike h (by decide) (by decide))
      (h .len (by decide)) hP hQ
  all_goals
    have hop : q.op = q'.op := h .op (by decide)
    rw [responseOf, responseOf, reservedOp, reservedOp, hop]
    exact agree_raise _ _ _

/-- Settles O39: equal counters give equal draws, and the responses agree. -/
theorem parametersDoNotMatter : Obligations.ParametersDoNotMatter := by
  unfold Obligations.ParametersDoNotMatter
  intro i s s' hq hq' h hdraws
  refine ⟨_, _, exec_eq i s, exec_eq i s', ?_⟩
  rw [answer_rsp, answer_rsp, State.draw, State.draw, hdraws]
  exact responseOf_agree hq hq' h _

end Sys2Proof.Machine
end

section
/-! One block (`30_encoding.md` rule R34): agreement up to padding is equality, since the padding of a
legal response is 0; and each operation leaves the ports it does not write at 0. -/

namespace Sys2Proof.Machine

variable {P : Params}

/-! ### Ports that are not read -/

theorem eq_of_forall_portChar {v v' : Vector (BitVec P.charW) P.smax}
    (h : ∀ j, portChar v j = portChar v' j) : v = v' := by
  ext1 j hj
  simpa [portChar, hj] using h j

theorem Response.Agree.eq_of_legal {x y : Response P} (h : x.Agree y) (hx : x.Legal)
    (hy : y.Legal) : x = y := by
  have hr : x.r = y.r := BitVec.eq_of_toNat_eq h.r
  have ho : x.o = y.o := by
    refine eq_of_forall_portChar fun j => ?_
    by_cases hj : j < x.o_len.toNat
    · exact BitVec.eq_of_toNat_eq (h.o j hj)
    · have hj' := not_lt.1 hj
      rw [hx.padding j hj', hy.padding j (h.o_len ▸ hj')]
  cases x
  cases y
  simp only [Response.mk.injEq]
  exact ⟨h.status, hr, h.r_w, h.r_sign, h.r_exp, h.r_man, h.o_len, ho, h.e_a, h.e_b⟩

/-- Requests that an operation cannot tell apart are both malformed or both well formed, and answered
alike in either case. -/
theorem responseOf_eq_of_seenAlike {i : Instr} {q q' : Request P} (h : SeenAlike i q q')
    (d : Word) : responseOf i q d = responseOf i q' d := by
  by_cases htag : ReqPort.a_w ∈ i.reads → TagFits P q.a_w
  · by_cases htext : i = .parsebin → TextFits P q.s_len
    · have htag' : ReqPort.a_w ∈ i.reads → TagFits P q'.a_w := by
        intro hi
        have hw : q.a_w = q'.a_w := h .a_w hi
        exact hw ▸ htag hi
      have htext' : i = .parsebin → TextFits P q'.s_len := by
        rintro rfl
        have hn : q.s_len = q'.s_len := h .s_len (by decide)
        exact hn ▸ htext rfl
      exact (responseOf_agree ⟨htag, htext⟩ ⟨htag', htext'⟩ h d).eq_of_legal
        (responseOf_legal i q d) (responseOf_legal i q' d)
    · obtain ⟨rfl, ht⟩ := Classical.not_imp.1 htext
      have hn : q.s_len = q'.s_len := h .s_len (by decide)
      rw [responseOf_of_text_not_fits ht, responseOf_of_text_not_fits (hn ▸ ht), hn]
  · obtain ⟨hi, ht⟩ := Classical.not_imp.1 htag
    have hw : q.a_w = q'.a_w := h .a_w hi
    rw [responseOf_of_tag_not_fits hi ht, responseOf_of_tag_not_fits hi (hw ▸ ht), hw]

/-! ### Ports that are not written -/

/-- The response is an error, or every port outside `ports` is 0. -/
def Response.WritesOnly (x : Response P) (ports : List RspPort) : Prop :=
  3 ≤ x.status.toNat ∨ ∀ p, p ∉ ports → x.PortIsZero p

theorem writesOnly_raise {e : Status} (he : e.isErr = true) (x y : Word) (ports : List RspPort) :
    (raise P e x y).WritesOnly ports :=
  .inl ((three_le_code_iff e).2 he)

theorem writesOnly_value (c : BitVec 3) (w : BitVec 8) (v : BitVec P.vw) :
    Response.WritesOnly { answerValue w v with status := c } [.status, .r, .r_w] := by
  refine .inr fun p hp => ?_
  cases p
  case status | r | r_w => exact absurd hp (by decide)
  all_goals rfl

theorem writesOnly_answerFields (p : Word) :
    (answerFields P p).WritesOnly [.status, .r_sign, .r_exp, .r_man] := by
  refine .inr fun p hp => ?_
  cases p
  case status | r_sign | r_exp | r_man => exact absurd hp (by decide)
  all_goals rfl

theorem writesOnly_answerString (v : BitVec P.vw) (k : Nat) :
    (answerString P v k).WritesOnly [.status, .o, .o_len] := by
  refine .inr fun p hp => ?_
  cases p
  case status | o | o_len => exact absurd hp (by decide)
  all_goals rfl

/-- A check goes on or raises: what is written is kept when both branches keep it. -/
theorem writesOnly_ite {c : Prop} [Decidable c] {x y : Response P} {ports : List RspPort}
    (hx : x.WritesOnly ports) (hy : y.WritesOnly ports) :
    (if c then x else y).WritesOnly ports := by
  split
  · exact hx
  · exact hy

theorem writesOnly_withTag {q : Request P} {k : Response P} {ports : List RspPort}
    (hk : k.WritesOnly ports) : (withTag q k).WritesOnly ports :=
  writesOnly_ite hk (writesOnly_raise rfl _ _ _)

theorem writesOnly_withText {q : Request P} {k : Response P} {ports : List RspPort}
    (hk : k.WritesOnly ports) : (withText q k).WritesOnly ports :=
  writesOnly_ite hk (writesOnly_raise rfl _ _ _)

theorem writesOnly_withFour {q : Request P} {k : Response P} {ports : List RspPort}
    (hk : k.WritesOnly ports) : (withFour q k).WritesOnly ports :=
  writesOnly_ite (writesOnly_raise rfl _ _ _) hk

theorem writesOnly_scanResponse (x : Scan P.charW) :
    (scanResponse P x).WritesOnly [.status, .r, .r_w] := by
  cases x with
  | value acc => exact writesOnly_value _ 4 _
  | offender c => exact writesOnly_value _ 4 _

theorem responseOf_writesOnly (i : Instr) (q : Request P) (d : Word) :
    (responseOf i q d).WritesOnly i.writes := by
  cases i
  case reinterp =>
    exact writesOnly_withTag (writesOnly_ite (writesOnly_raise rfl _ _ _) (writesOnly_value _ _ _))
  case reinterpI32 | reinterpF32 | bitinc | bitdec =>
    exact writesOnly_withTag (writesOnly_withFour (writesOnly_value _ 4 _))
  case split => exact writesOnly_withTag (writesOnly_withFour (writesOnly_answerFields _))
  case assemble => exact writesOnly_value _ 4 _
  case parsebin =>
    exact writesOnly_withText (writesOnly_ite (writesOnly_value _ 4 _) (writesOnly_scanResponse _))
  case renderbin =>
    exact writesOnly_withTag
      (writesOnly_ite (writesOnly_raise rfl _ _ _) (writesOnly_answerString _ _))
  all_goals exact writesOnly_raise rfl _ _ _

/-- Under an error only the status and the two items carry anything. -/
theorem Response.Legal.portIsZero_of_err {x : Response P} (h : x.Legal)
    (herr : 3 ≤ x.status.toNat) {p : RspPort} (hp : p ∉ [RspPort.status, .e_a, .e_b]) :
    x.PortIsZero p := by
  rw [h.err_rest herr]
  cases p
  case status | e_a | e_b => exact absurd hp (by decide)
  all_goals rfl

theorem status_mem_writes (i : Instr) : RspPort.status ∈ i.writes := by
  cases i <;> decide

/-- A port an operation does not write is 0; an error item counts as written under an error. -/
theorem responseOf_portIsZero {i : Instr} {q : Request P} {d : Word} {p : RspPort}
    (hp : p ∉ i.writes)
    (hitem : p ≠ .e_a ∧ p ≠ .e_b ∨ (responseOf i q d).status.toNat ≤ 2) :
    (responseOf i q d).PortIsZero p := by
  rcases responseOf_writesOnly i q d with herr | hzero
  · obtain ⟨ha, hb⟩ := hitem.resolve_right (by omega)
    have hstatus : p ≠ .status := fun h => hp (h ▸ status_mem_writes i)
    exact (responseOf_legal i q d).portIsZero_of_err herr (by simp [hstatus, ha, hb])
  · exact hzero p hp

/-- Settles O35: the response depends on the ports read, the other ports of it are 0 by the shape of
each operation's answer, and the bits above the value are 0 because it is legal. -/
theorem onlyListedPortsMatter : Obligations.OnlyListedPortsMatter := by
  unfold Obligations.OnlyListedPortsMatter
  refine ⟨fun i s q h => ⟨_, s.draws + 1, exec_eq i s, ?_⟩, fun i s t h => ?_⟩
  · rw [exec_eq, responseOf_eq_of_seenAlike h]
    rfl
  · obtain rfl := eq_answer_of_exec h
    have hlegal := responseOf_legal i s.req s.draw
    exact ⟨fun _ hp hitem => responseOf_portIsZero hp hitem,
      fun herr _ hp => hlegal.portIsZero_of_err herr hp, hlegal.r_lt⟩

end Sys2Proof.Machine
end

section
/-! Laws of the reinterpretations (`40_bitreinterpreter.md` rules R42, R53): with an accepted width the
three operations are one operation, which copies the value. -/

namespace Sys2Proof.Machine

variable {P : Params}

/-! ### REINTERP with `t_w = 4` -/

/-- The value of byte width 4 is the pattern, zero-extended. -/
theorem answerValue_four (v : BitVec P.vw) :
    answerValue 4 (portValue 4 v) = answerPattern P (portPattern v) := rfl

theorem reinterpRule_four {q : Request P} (ht : q.t_w = 4) :
    reinterpRule q = withFour q (answerPattern P (portPattern q.a)) := by
  rw [reinterpRule_eq_ite, withFour_eq_ite, ht]
  by_cases hw : q.a_w = 4
  · rw [if_neg (not_not.2 hw), if_neg (not_not.2 hw), hw]
    exact answerValue_four q.a
  · rw [if_pos hw, if_pos hw]
    rfl

/-- Settles O14: the width check of REINTERP against `t_w = 4` is that of the 4-byte operations. -/
theorem specialReinterpretationsAreReinterp : Obligations.SpecialReinterpretationsAreReinterp := by
  unfold Obligations.SpecialReinterpretationsAreReinterp
  intro s
  refine ⟨withTag s.req (reinterpI32Rule s.req), s.draws + 1, ?_, exec_reinterpI32 s,
    exec_reinterpF32 s⟩
  rw [exec_reinterp, reinterpRule_four rfl]
  rfl

/-! ### With an accepted width -/

/-- The width each reinterpretation accepts (rules R50 to R52). -/
def acceptedWidth (i : Instr) (q : Request P) : BitVec 8 := if i = .reinterp then q.t_w else 4

theorem exec_reinterpretation {i : Instr} (hi : i ∈ [Instr.reinterp, .reinterpI32, .reinterpF32])
    {s : State} (ht : TagFits s.params s.req.a_w) (hw : s.req.a_w = acceptedWidth i s.req) :
    exec i s = .next (s.answer (answerValue s.req.a_w (portValue s.req.a_w.toNat s.req.a))) := by
  cases i
  case reinterp =>
    have htags : s.req.a_w = s.req.t_w := hw
    rw [exec_reinterp_of_fits ht, reinterpRule_of_eq htags, htags]
  case reinterpI32 | reinterpF32 =>
    have hfour : s.req.a_w = 4 := hw
    rw [exec_eq, responseOf, withTag_of_fits ht]
    exact congrArg (fun x => Host.Outcome.next (s.answer x))
      ((withFour_of_four hfour _).trans (hfour ▸ (answerValue_four s.req.a).symm))
  all_goals exact absurd hi (by decide)

/-- Settles O15: the copy keeps the value's bits, and copying a value that is 0 above its own bits
changes nothing. -/
theorem reinterpretationKeepsBits : Obligations.ReinterpretationKeepsBits := by
  unfold Obligations.ReinterpretationKeepsBits
  intro i hi j hj s ht hw
  have hvalue := portValue_toNat ht.2 s.req.a
  refine ⟨_, exec_reinterpretation hi ht hw, rfl, rfl, ?bits, fun hw' => ?again⟩
  case bits =>
    apply BitVec.eq_of_toNat_eq
    rw [BitVec.toNat_setWidth, BitVec.toNat_setWidth, answer_rsp, answerValue_r, hvalue,
      Nat.mod_mod]
  case again =>
    refine ⟨_, exec_reinterpretation hj (s := State.copyValue _) ht hw', rfl, rfl, ?_⟩
    refine (portValue_toNat ht.2 _).trans ?_
    rw [copyValue_a, answer_rsp, answerValue_r, hvalue, Nat.mod_mod]

end Sys2Proof.Machine
end

section
/-! The other inverse of the field codec (`41_fieldcodec.md` rule R58): the fields of joined fields. -/

namespace Sys2Proof.Machine

/-- A concatenation as a number: its parts do not overlap. -/
theorem toNat_append_eq_add {m n : Nat} (x : BitVec m) (y : BitVec n) :
    (x ++ y).toNat = x.toNat * 2 ^ n + y.toNat := by
  rw [BitVec.toNat_append, ← Nat.shiftLeft_add_eq_or_of_lt y.isLt, Nat.shiftLeft_eq]

theorem joinFields_toNat_eq_add (sign : BitVec 1) (exponent : BitVec 8) (mantissa : BitVec 23) :
    (joinFields sign exponent mantissa).toNat =
      (sign.toNat * 2 ^ 8 + exponent.toNat) * 2 ^ 23 + mantissa.toNat := by
  rw [joinFields, BitVec.setWidth_eq, toNat_append_eq_add, toNat_append_eq_add]

theorem signField_joinFields (sign : BitVec 1) (exponent : BitVec 8) (mantissa : BitVec 23) :
    signField (joinFields sign exponent mantissa) = sign := by
  apply BitVec.eq_of_toNat_eq
  rw [signField_toNat, joinFields_toNat_eq_add]
  omega

theorem exponentField_joinFields (sign : BitVec 1) (exponent : BitVec 8) (mantissa : BitVec 23) :
    exponentField (joinFields sign exponent mantissa) = exponent := by
  apply BitVec.eq_of_toNat_eq
  rw [exponentField_toNat, joinFields_toNat_eq_add]
  omega

theorem mantissaField_joinFields (sign : BitVec 1) (exponent : BitVec 8) (mantissa : BitVec 23) :
    mantissaField (joinFields sign exponent mantissa) = mantissa := by
  apply BitVec.eq_of_toNat_eq
  rw [mantissaField_toNat, joinFields_toNat_eq_add]
  omega

/-- Masking the low `k` bits keeps a word exactly when it has no other bit. -/
theorem and_lowMask_eq_self_iff (x : Word) (k : Nat) (hk : k ≤ 32) :
    x &&& BitVec.ofNat 32 (2 ^ k - 1) = x ↔ x.toNat ≤ 2 ^ k - 1 := by
  have hmask : 2 ^ k - 1 < 2 ^ 32 :=
    lt_of_lt_of_le (Nat.sub_lt (by positivity) one_pos) (Nat.pow_le_pow_right two_pos hk)
  have hpos : 0 < 2 ^ k := by positivity
  rw [← BitVec.toNat_inj, BitVec.toNat_and, BitVec.toNat_ofNat, Nat.mod_eq_of_lt hmask,
    Nat.and_two_pow_sub_one_eq_mod, Nat.mod_eq_iff_lt hpos.ne']
  omega

/-- Settles O20: the parts of a concatenation are its fields, and truncating an input is masking it. -/
theorem splitAfterAssemble : Obligations.SplitAfterAssemble := by
  unfold Obligations.SplitAfterAssemble
  intro s
  refine ⟨_, exec_assemble s, _, exec_split_of_four rfl, rfl, ?_⟩
  rw [answer_rsp, copyValue_a, answer_rsp, assembleRule, answerPattern_r, portPattern_setWidth,
    answerFields, signField_joinFields, exponentField_joinFields, mantissaField_joinFields,
    ← and_lowMask _ 1 (by decide), ← and_lowMask _ 8 (by decide), ← and_lowMask _ 23 (by decide)]
  refine ⟨rfl, rfl, rfl, ?_⟩
  rw [and_lowMask_eq_self_iff _ 1 (by decide), and_lowMask_eq_self_iff _ 8 (by decide),
    and_lowMask_eq_self_iff _ 23 (by decide)]
  rfl

end Sys2Proof.Machine
end

section
/-! Laws of the steps (`42_ulpstepper.md` rules R65 to R67). Every proof is about patterns as natural
numbers; the order of values is the order of their keys. -/

namespace Sys2Proof.Machine

/-! ### The third case -/

/-- Rule R61's third case: toward +Infinity, a negative pattern goes down and any other up. -/
theorem stepUp_toNat_of_third {p : Word} (hs : isSpecial p = false) (hz : isNegZero p = false) :
    (stepUp p).toNat = if p.toInt < 0 then p.toNat - 1 else p.toNat + 1 := by
  have hs' := mt (isSpecial_iff_toNat p).2 (by simp [hs])
  have hz' := mt (isNegZero_iff_toNat p).2 (by simp [hz])
  rw [stepUp_toNat, if_neg hs', if_neg hz']
  simp only [← isNegative_iff_toNat, isNegative_iff_toInt]

/-- Rule R62's third case: toward -Infinity, a negative pattern goes up and any other down. -/
theorem stepDown_toNat_of_third {p : Word} (hs : isSpecial p = false) (hz : isPosZero p = false) :
    (stepDown p).toNat = if p.toInt < 0 then p.toNat + 1 else p.toNat - 1 := by
  have hs' := mt (isSpecial_iff_toNat p).2 (by simp [hs])
  have hz' := mt (isPosZero_iff_toNat p).2 (by simp [hz])
  rw [stepDown_toNat, if_neg hs', if_neg hz']
  simp only [← isNegative_iff_toNat, isNegative_iff_toInt]

/-- A pattern next to a pattern that is not special, in the same half of the patterns: the sign stays,
the difference is the same read signed, and at most an infinity is reached. -/
theorem neighbour_props {p q : Word} (hs : isSpecial p = false)
    (hhalf : 2147483648 ≤ p.toNat ↔ 2147483648 ≤ q.toNat)
    (hnext : q.toNat = p.toNat + 1 ∨ p.toNat = q.toNat + 1) :
    q.toInt = p.toInt + ((q.toNat : Int) - p.toNat) ∧ signField q = signField p ∧
      isNaN q = false := by
  have hp := p.isLt
  have hq := q.isLt
  have hs' := mt (isSpecial_iff_toNat p).2 (by simp [hs])
  refine ⟨?_, ?_, ?_⟩
  · rw [BitVec.toInt_eq_toNat_cond, BitVec.toInt_eq_toNat_cond]
    split_ifs <;> omega
  · apply BitVec.eq_of_toNat_eq
    rw [signField_toNat, signField_toNat]
    omega
  · rw [Bool.eq_false_iff, ne_eq, isNaN_iff_toNat]
    omega

/-- Settles O25: the third case stays in its half of the patterns. -/
theorem stepNeverWraps : Obligations.StepNeverWraps := by
  unfold Obligations.StepNeverWraps
  intro p hs
  have hp := p.isLt
  have hneg := (isNegative_iff_toInt p).symm.trans (isNegative_iff_toNat p)
  have hs' := mt (isSpecial_iff_toNat p).2 (by simp [hs])
  refine ⟨fun hz => ?up, fun hz => ?down⟩
  case up =>
    have hz' := mt (isNegZero_iff_toNat p).2 (by simp [hz])
    have hstep := stepUp_toNat_of_third hs hz
    obtain ⟨hint, hsign, hnan⟩ := neighbour_props hs (q := stepUp p)
      (by split_ifs at hstep <;> omega) (by split_ifs at hstep <;> omega)
    exact ⟨by rw [hint]; split_ifs at hstep ⊢ <;> omega, hstep, hsign, hnan⟩
  case down =>
    have hz' := mt (isPosZero_iff_toNat p).2 (by simp [hz])
    have hstep := stepDown_toNat_of_third hs hz
    obtain ⟨hint, hsign, hnan⟩ := neighbour_props hs (q := stepDown p)
      (by split_ifs at hstep <;> omega) (by split_ifs at hstep <;> omega)
    exact ⟨by rw [hint]; split_ifs at hstep ⊢ <;> omega, hstep, hsign, hnan⟩

/-! ### The steps undo each other -/

theorem stepDown_stepUp (p : Word) :
    stepDown (stepUp p) =
      if p = 0x80000000#32 then 0x00000000#32
      else if p = 0x7F800000#32 then 0x7F7FFFFF#32
      else p := by
  by_cases hz : p = 0x80000000#32
  · subst hz
    decide
  by_cases hinf : p = 0x7F800000#32
  · subst hinf
    decide
  rw [if_neg hz, if_neg hinf]
  have hp := p.isLt
  have hz' : p.toNat ≠ 0x80000000 := fun h => hz (BitVec.eq_of_toNat_eq h)
  have hinf' : p.toNat ≠ 0x7F800000 := fun h => hinf (BitVec.eq_of_toNat_eq h)
  have hup := stepUp_toNat p
  apply BitVec.eq_of_toNat_eq
  rw [stepDown_toNat]
  split_ifs at hup ⊢ <;> omega

theorem stepUp_stepDown (p : Word) :
    stepUp (stepDown p) =
      if p = 0x00000000#32 then 0x80000000#32
      else if p = 0xFF800000#32 then 0xFF7FFFFF#32
      else p := by
  by_cases hz : p = 0x00000000#32
  · subst hz
    decide
  by_cases hinf : p = 0xFF800000#32
  · subst hinf
    decide
  rw [if_neg hz, if_neg hinf]
  have hp := p.isLt
  have hz' : p.toNat ≠ 0 := fun h => hz (BitVec.eq_of_toNat_eq h)
  have hinf' : p.toNat ≠ 0xFF800000 := fun h => hinf (BitVec.eq_of_toNat_eq h)
  have hdown := stepDown_toNat p
  apply BitVec.eq_of_toNat_eq
  rw [stepUp_toNat]
  split_ifs at hdown ⊢ <;> omega

/-- Settles O26: the copied result carries the stepped pattern, and the steps undo each other. -/
theorem stepsAreInverse : Obligations.StepsAreInverse := by
  unfold Obligations.StepsAreInverse
  intro s h
  refine ⟨⟨_, exec_bitinc_of_four h, _, exec_bitdec_of_four rfl, rfl, rfl, ?_⟩,
    ⟨_, exec_bitdec_of_four h, _, exec_bitinc_of_four rfl, rfl, rfl, ?_⟩⟩
  · refine (portPattern_setWidth _).trans ?_
    rw [copyValue_a, answer_rsp, answerPattern_r, portPattern_setWidth]
    exact stepDown_stepUp _
  · refine (portPattern_setWidth _).trans ?_
    rw [copyValue_a, answer_rsp, answerPattern_r, portPattern_setWidth]
    exact stepUp_stepDown _

/-! ### The next number -/

theorem numericValue_isSome_iff (p : Word) : (∃ x, numericValue p = some x) ↔ isNaN p = false := by
  rw [Bool.eq_false_iff, ne_eq, isNaN_iff_toNat, numericValue_eq]
  split_ifs <;> simp_all

theorem eq_posInf_iff {p : Word} {x : ExtVal} (hx : numericValue p = some x) :
    x = .posInf ↔ p.toNat = 0x7F800000 := by
  have hp := p.isLt
  rw [numericValue_eq] at hx
  split_ifs at hx <;> simp only [Option.some.injEq] at hx <;> subst hx <;> simp <;> omega

theorem eq_negInf_iff {p : Word} {x : ExtVal} (hx : numericValue p = some x) :
    x = .negInf ↔ p.toNat = 0xFF800000 := by
  have hp := p.isLt
  rw [numericValue_eq] at hx
  split_ifs at hx <;> simp only [Option.some.injEq] at hx <;> subst hx <;> simp <;> omega

/-- Up by one key, but from +Infinity: -0 and +0 share the key 0. -/
theorem key_stepUp {p : Word} (hn : isNaN p = false) (hi : p.toNat ≠ 0x7F800000) :
    key (stepUp p) = key p + 1 := by
  have hp := p.isLt
  have hn' := mt (isNaN_iff_toNat p).2 (by simp [hn])
  have hup := stepUp_toNat p
  unfold key
  split_ifs at hup ⊢ <;> omega

theorem key_stepDown {p : Word} (hn : isNaN p = false) (hi : p.toNat ≠ 0xFF800000) :
    key (stepDown p) = key p - 1 := by
  have hp := p.isLt
  have hn' := mt (isNaN_iff_toNat p).2 (by simp [hn])
  have hdown := stepDown_toNat p
  unfold key
  split_ifs at hdown ⊢ <;> omega

theorem isNaN_stepUp {p : Word} (hn : isNaN p = false) : isNaN (stepUp p) = false := by
  have hp := p.isLt
  have hn' := mt (isNaN_iff_toNat p).2 (by simp [hn])
  have hup := stepUp_toNat p
  rw [Bool.eq_false_iff, ne_eq, isNaN_iff_toNat]
  split_ifs at hup <;> omega

theorem isNaN_stepDown {p : Word} (hn : isNaN p = false) : isNaN (stepDown p) = false := by
  have hp := p.isLt
  have hn' := mt (isNaN_iff_toNat p).2 (by simp [hn])
  have hdown := stepDown_toNat p
  rw [Bool.eq_false_iff, ne_eq, isNaN_iff_toNat]
  split_ifs at hdown <;> omega

/-- One key up is the least value strictly greater. -/
theorem least_greater_of_key {p q : Word} {x y : ExtVal} (hx : numericValue p = some x)
    (hy : numericValue q = some y) (hkey : key q = key p + 1) :
    x.Less y ∧ ∀ r z, numericValue r = some z → x.Less z → z = y ∨ y.Less z := by
  refine ⟨(less_iff_key hx hy).2 (by omega), fun r z hz hless => ?_⟩
  have hlt := (less_iff_key hx hz).1 hless
  rcases eq_or_ne (key r) (key q) with heq | hne
  · exact .inl (value_eq_of_key hz hy heq)
  · exact .inr ((less_iff_key hy hz).2 (by omega))

/-- One key down is the greatest value strictly less. -/
theorem greatest_less_of_key {p q : Word} {x y : ExtVal} (hx : numericValue p = some x)
    (hy : numericValue q = some y) (hkey : key q = key p - 1) :
    y.Less x ∧ ∀ r z, numericValue r = some z → z.Less x → z = y ∨ z.Less y := by
  refine ⟨(less_iff_key hy hx).2 (by omega), fun r z hz hless => ?_⟩
  have hlt := (less_iff_key hz hx).1 hless
  rcases eq_or_ne (key r) (key q) with heq | hne
  · exact .inl (value_eq_of_key hz hy heq)
  · exact .inr ((less_iff_key hz hy).2 (by omega))

theorem stepUp_isNextAbove {p : Word} {x : ExtVal} (hx : numericValue p = some x) :
    ∃ y, numericValue (stepUp p) = some y ∧ (x = .posInf → y = .posInf) ∧
      (x ≠ .posInf → x.Less y ∧
        ∀ r z, numericValue r = some z → x.Less z → z = y ∨ y.Less z) := by
  have hn := (numericValue_isSome_iff p).1 ⟨x, hx⟩
  obtain ⟨y, hy⟩ := (numericValue_isSome_iff _).2 (isNaN_stepUp hn)
  refine ⟨y, hy, fun hinf => ?_, fun hinf => ?_⟩
  · have hp : p = 0x7F800000#32 := BitVec.eq_of_toNat_eq ((eq_posInf_iff hx).1 hinf)
    rw [hp] at hy
    exact (eq_posInf_iff hy).2 (by decide)
  · exact least_greater_of_key hx hy (key_stepUp hn (mt (eq_posInf_iff hx).2 hinf))

theorem stepDown_isNextBelow {p : Word} {x : ExtVal} (hx : numericValue p = some x) :
    ∃ y, numericValue (stepDown p) = some y ∧ (x = .negInf → y = .negInf) ∧
      (x ≠ .negInf → y.Less x ∧
        ∀ r z, numericValue r = some z → z.Less x → z = y ∨ z.Less y) := by
  have hn := (numericValue_isSome_iff p).1 ⟨x, hx⟩
  obtain ⟨y, hy⟩ := (numericValue_isSome_iff _).2 (isNaN_stepDown hn)
  refine ⟨y, hy, fun hinf => ?_, fun hinf => ?_⟩
  · have hp : p = 0xFF800000#32 := BitVec.eq_of_toNat_eq ((eq_negInf_iff hx).1 hinf)
    rw [hp] at hy
    exact (eq_negInf_iff hy).2 (by decide)
  · exact greatest_less_of_key hx hy (key_stepDown hn (mt (eq_negInf_iff hx).2 hinf))

/-- Settles O27: a step moves the key by one, and the order of keys is the order of values. -/
theorem stepIsToTheNextNumber : Obligations.StepIsToTheNextNumber := by
  unfold Obligations.StepIsToTheNextNumber
  intro s x h hx
  obtain ⟨y, hy, hinf, hnext⟩ := stepUp_isNextAbove hx
  obtain ⟨z, hz, hinf', hnext'⟩ := stepDown_isNextBelow hx
  have hr : ∀ p : Word, (answerPattern s.params p).r.setWidth 32 = p := portPattern_setWidth
  refine ⟨⟨_, exec_bitinc_of_four h, y, ?_, hinf, hnext, ?_⟩,
    ⟨_, exec_bitdec_of_four h, z, ?_, hinf', hnext', ?_⟩⟩
  · rw [answer_rsp, hr]
    exact hy
  · intro hp
    rw [answer_rsp, hr, portPattern, hp]
    decide
  · rw [answer_rsp, hr]
    exact hz
  · intro hp
    rw [answer_rsp, hr, portPattern, hp]
    decide

end Sys2Proof.Machine
end

section
/-! Laws of the string operations (`43_binarystringcodec.md` rules R71, R76, R78; `20_memory.md` rule
R21): what is rendered is parsed back, and what is parsed is rendered back. -/

namespace Sys2Proof.Machine

variable {P : Params}

/-! ### Limits of PARSEBIN -/

theorem parsebinRule_of_digits {q : Request P} (hwithin : q.s_len.toNat ≤ q.len.toInt)
    (h : ∀ k < q.s_len.toNat, (portChar q.s k).toNat = 48 ∨ (portChar q.s k).toNat = 49)
    (d : Word) :
    parsebinRule q d = answerPattern P (BitVec.ofNat 32 (digitsValue (requestText q))) := by
  rw [parsebinRule_of_within hwithin, scan_requestText_of_digits h, scanResponse]

/-- The empty text denotes 0. -/
theorem parsebinRule_of_empty {q : Request P} (hlen : 0 ≤ q.len.toInt) (hn : q.s_len = 0)
    (d : Word) : parsebinRule q d = answerPattern P 0 := by
  have hzero : q.s_len.toNat = 0 := congrArg BitVec.toNat hn
  have htext : requestText q = [] := List.length_eq_zero_iff.1 ((length_requestText q).trans hzero)
  rw [parsebinRule_of_digits (by omega) (fun k hk => by omega), htext]
  rfl

/-- Settles O31: each corner is a case of the length check. -/
theorem parsebinLimitCorners : Obligations.ParsebinLimitCorners := by
  unfold Obligations.ParsebinLimitCorners
  intro s ht
  refine ⟨_, exec_parsebin_of_fits ht, fun hneg => ?negative, fun hlen hn => ?empty,
    fun hlen => ⟨fun hok => ?onlyEmpty, fun hn => ?empty'⟩⟩
  case negative =>
    rw [answer_rsp, parsebinRule_of_tooLong (by omega), Status.code]
  case empty =>
    rw [answer_rsp, parsebinRule_of_empty hlen hn]
    exact ⟨rfl, by simp⟩
  case onlyEmpty =>
    by_contra hn
    have hpos : s.req.s_len.toNat ≠ 0 := fun h => hn (BitVec.eq_of_toNat_eq h)
    have hlong : s.req.len.toInt < s.req.s_len.toNat := by
      have hzero : s.req.len.toInt = 0 := by simp [hlen]
      omega
    rw [answer_rsp, parsebinRule_of_tooLong hlong] at hok
    exact absurd hok (by simp [Status.code])
  case empty' =>
    rw [answer_rsp, parsebinRule_of_empty (by simp [hlen]) hn, answerPattern_status]

/-! ### Parsing what was rendered -/

theorem exec_renderbin_of_within {s : State} (ht : TagFits s.params s.req.a_w)
    (h : s.req.len.toInt ≤ 8 * s.req.a_w.toNat) :
    exec .renderbin s =
      .next (s.answer (answerString s.params s.req.a (renderLength s.req))) := by
  rw [exec_renderbin_of_fits ht, renderbinRule_of_within h]

/-- PARSEBIN of the string of the low `k` bits answers those bits. -/
theorem exec_parsebin_of_rendered {s : State} {v : BitVec s.params.vw} {k : Nat}
    (hk : k ≤ s.params.smax) (hk' : k < 2 ^ 16) (hs : s.req.s = renderString s.params v k)
    (hn : s.req.s_len = BitVec.ofNat 16 k) (hlen : k ≤ s.req.len.toInt) :
    exec .parsebin s =
      .next (s.answer (answerPattern s.params (BitVec.ofNat 32 (v.toNat % 2 ^ k)))) := by
  have hcount : s.req.s_len.toNat = k := by
    rw [hn, BitVec.toNat_ofNat, Nat.mod_eq_of_lt hk']
  have hdigits : ∀ j < s.req.s_len.toNat,
      (portChar s.req.s j).toNat = 48 ∨ (portChar s.req.s j).toNat = 49 := by
    intro j hj
    rw [hs, portChar_renderString v hk, if_pos (hcount ▸ hj), bitChar_toNat]
    split <;> simp
  have hfits : TextFits s.params s.req.s_len := hcount.trans_le hk
  rw [exec_parsebin_of_fits hfits, parsebinRule_of_digits (by rwa [hcount]) hdigits,
    requestText_renderString v hk hk' _ hs hn, digitsValue_bitChars]

/-- The bits the automatic length leaves out are 0. -/
theorem mod_two_pow_autoLength {n : Nat} (v : BitVec n) {m : Nat} (hm : 1 ≤ m) :
    v.toNat % 2 ^ autoLength v m = v.toNat % 2 ^ m := by
  obtain ⟨-, hle, hhigh, -⟩ := autoLength_spec v hm
  apply Nat.eq_of_testBit_eq
  intro i
  rw [Nat.testBit_mod_two_pow, Nat.testBit_mod_two_pow]
  by_cases hlow : i < autoLength v m
  · simp [hlow, hlow.trans_le hle]
  · by_cases hi : i < m
    · have hbit : v.toNat.testBit i = false := hhigh i (not_lt.1 hlow) hi
      simp [hbit]
    · simp [hlow, hi]

/-- The shown bits, and why they fit the accumulator: the length is at most 32, or the value is below
2^32. -/
theorem shown_bits {q : Request P} (ht : TagFits P q.a_w) (h32 : q.len.toInt ≤ 32)
    (hauto : q.len.toInt ≤ 0 → (q.a.setWidth (8 * q.a_w.toNat)).toNat < 2 ^ 32) :
    q.a.toNat % 2 ^ renderLength q < 2 ^ 32 ∧
      (q.len.toInt ≤ 0 → q.a.toNat % 2 ^ renderLength q = q.a.toNat % 2 ^ (8 * q.a_w.toNat)) := by
  have hmod : q.len.toInt ≤ 0 →
      q.a.toNat % 2 ^ renderLength q = q.a.toNat % 2 ^ (8 * q.a_w.toNat) := by
    intro hlen
    rw [renderLength_automatic hlen, mod_two_pow_autoLength q.a (by omega)]
  refine ⟨?_, hmod⟩
  rcases le_or_gt q.len.toInt 0 with hlen | hlen
  · rw [hmod hlen, ← BitVec.toNat_setWidth]
    exact hauto hlen
  · rw [renderLength_explicit hlen]
    calc q.a.toNat % 2 ^ q.len.toInt.toNat < 2 ^ q.len.toInt.toNat := Nat.mod_lt _ (by positivity)
      _ ≤ 2 ^ 32 := Nat.pow_le_pow_right two_pos (by omega)

/-- Settles O33: PARSEBIN of the rendered string answers the shown bits, which fit 32 bits. -/
theorem parseAfterRender : Obligations.ParseAfterRender := by
  unfold Obligations.ParseAfterRender
  intro s limit ht hwithin h32 hauto
  obtain ⟨-, -, hsmax, hlt⟩ := renderLength_bounds ht hwithin
  obtain ⟨hfit, hmod⟩ := shown_bits ht h32 hauto
  refine ⟨_, exec_renderbin_of_within ht hwithin, rfl, fun hlimit => ?_⟩
  rw [answer_rsp, answerString_o_len_toNat _ hlt] at hlimit
  refine ⟨_, exec_parsebin_of_rendered (s := (s.answer _).copyText limit) hsmax hlt rfl rfl hlimit,
    rfl, rfl, ?_⟩
  have hr : ((BitVec.ofNat 32 (s.req.a.toNat % 2 ^ renderLength s.req)).setWidth
      s.params.vw).toNat = s.req.a.toNat % 2 ^ renderLength s.req := by
    rw [setWidth_vw_toNat, BitVec.toNat_ofNat, Nat.mod_eq_of_lt hfit]
  refine ⟨fun hlen => hr.trans ?_, fun hlen => hr.trans (hmod hlen)⟩
  rw [renderLength_explicit hlen]

/-! ### Rendering what was parsed -/

/-- A text starting with '0' denotes a number with one bit less than it has characters. -/
theorem digitsValue_lt_of_leading_zero {w : Nat} {cs : List (BitVec w)}
    (h : ∀ c ∈ cs, c.toNat = 48 ∨ c.toNat = 49) (hpos : 0 < cs.length)
    (hzero : cs[0].toNat = 48) : digitsValue cs < 2 ^ (cs.length - 1) := by
  cases cs with
  | nil => exact absurd hpos (Nat.lt_irrefl 0)
  | cons c cs =>
    have hc : c.toNat = 48 := hzero
    rw [digitsValue, hc, Nat.sub_self, Nat.zero_mul, Nat.zero_add]
    exact digitsValue_lt cs fun d hd => h d (List.mem_cons_of_mem c hd)

/-- Character `j` of the text a request carries. -/
theorem getElem_requestText (q : Request P) {j : Nat} (hj : j < (requestText q).length) :
    (requestText q)[j] = portChar q.s j := by
  simp [requestText]

/-- The automatic length is below any `n ≥ 2` for which the bits from `n - 1` on are 0. -/
theorem autoLength_lt {m : Nat} {v : BitVec m} {k n : Nat} (hk : 1 ≤ k) (hn : 2 ≤ n)
    (hv : v.toNat < 2 ^ (n - 1)) : autoLength v k < n := by
  obtain ⟨-, -, -, htop⟩ := autoLength_spec v hk
  by_contra hge
  have hbit : v.toNat.testBit (autoLength v k - 1) = true := htop (by omega)
  have hpow : 2 ^ (n - 1) ≤ 2 ^ (autoLength v k - 1) := Nat.pow_le_pow_right two_pos (by omega)
  have := Nat.ge_two_pow_of_testBit hbit
  omega

/-- A digit is the character of its bit. -/
theorem bitChar_toNat_of_digit {c : Nat} (h : c = 48 ∨ c = 49) :
    (bitChar P.charW (c == 49)).toNat = c := by
  rcases h with rfl | rfl <;> simp [bitChar_toNat]

/-- A word below 2^31 is the same number read signed. -/
theorem toInt_eq_of_toNat_eq {x : Word} {n : Nat} (h : x.toNat = n) (hn : n < 2 ^ 31) :
    x.toInt = n := by
  rw [BitVec.toInt_eq_toNat_of_lt (by omega), h]

theorem renderbinRule_of_own_length {q : Request P} {n : Nat} (hw : q.a_w = 4) (hpos : 1 ≤ n)
    (h32 : n ≤ 32) (hlen : q.len.toNat = n) : renderbinRule q = answerString P q.a n := by
  have hwidth : q.a_w.toNat = 4 := congrArg BitVec.toNat hw
  have hint := toInt_eq_of_toNat_eq hlen (by omega)
  rw [renderbinRule_of_within (by omega), renderLength_explicit (by omega), hint, Int.toNat_natCast]

theorem renderbinRule_of_zero_length {q : Request P} (hw : q.a_w = 4) (hlen : q.len = 0) :
    renderbinRule q = answerString P q.a (autoLength q.a 32) := by
  have hwidth : q.a_w.toNat = 4 := congrArg BitVec.toNat hw
  have hint : q.len.toInt = 0 := by simp [hlen]
  rw [renderbinRule_of_within (by omega), renderLength_automatic hint.le, hwidth]

/-- The string of a number read from a text of digits is that text, leading zeros too. -/
theorem portChar_renderString_digitsValue {v : BitVec P.vw} {cs : List (BitVec P.charW)}
    (h : ∀ c ∈ cs, c.toNat = 48 ∨ c.toNat = 49) (hv : v.toNat = digitsValue cs)
    (hfits : cs.length ≤ P.smax) {j : Nat} (hj : j < cs.length) :
    (portChar (renderString P v cs.length) j).toNat = cs[j].toNat := by
  rw [portChar_renderString v hfits, if_pos hj, BitVec.getLsbD, hv, testBit_digitsValue cs h j hj]
  exact bitChar_toNat_of_digit (h _ (List.getElem_mem hj))

/-- A text of at most 32 digits is parsed without loss. -/
theorem parsed_toNat {cs : List (BitVec P.charW)} (h : ∀ c ∈ cs, c.toNat = 48 ∨ c.toNat = 49)
    (h32 : cs.length ≤ 32) :
    ((BitVec.ofNat 32 (digitsValue cs)).setWidth P.vw).toNat = digitsValue cs := by
  have hlt : digitsValue cs < 2 ^ 32 :=
    (digitsValue_lt cs h).trans_le (Nat.pow_le_pow_right two_pos h32)
  rw [setWidth_vw_toNat, BitVec.toNat_ofNat, Nat.mod_eq_of_lt hlt]

/-- Settles O34: bit `n - 1 - j` of the parsed number is the digit at position `j`, and a leading '0'
leaves the top bit 0. -/
theorem renderAfterParse : Obligations.RenderAfterParse := by
  unfold Obligations.RenderAfterParse
  intro s ht hwithin hpos h32 hdigits
  have htext := (forall_mem_requestText s.req fun c => c.toNat = 48 ∨ c.toNat = 49).2 hdigits
  have hcount := length_requestText s.req
  have hvalue := parsed_toNat htext (hcount.trans_le h32)
  have hexec := exec_parsebin_of_fits ht
  rw [parsebinRule_of_digits hwithin hdigits] at hexec
  refine ⟨_, hexec, rfl, fun len => ⟨_, exec_renderbin_of_fits tagFits_four, fun hlen => ?own,
    fun hlen => ?auto⟩⟩
  case own =>
    rw [answer_rsp, renderbinRule_of_own_length rfl hpos h32 hlen]
    have hfits : (requestText s.req).length ≤ s.params.smax := hcount.trans_le ht
    refine ⟨rfl, (BitVec.ofNat_toNat 16 s.req.s_len).trans (BitVec.setWidth_eq _), fun j hj => ?_⟩
    have hshown := portChar_renderString_digitsValue htext hvalue hfits (hj.trans_eq hcount.symm)
    rw [getElem_requestText, hcount] at hshown
    exact hshown
  case auto =>
    rw [answer_rsp, renderbinRule_of_zero_length rfl hlen]
    refine ⟨rfl, fun hzero hlong => ?_⟩
    have hhead : (requestText s.req)[0].toNat = 48 := by rwa [getElem_requestText]
    have htop := digitsValue_lt_of_leading_zero htext (by omega) hhead
    rw [hcount, ← hvalue] at htop
    have hshort := autoLength_lt (k := 32) (by decide) hlong htop
    exact (answerString_o_len_toNat _ (hshort.trans s.req.s_len.isLt)).trans_lt hshort

/-! ### The bytes of a value -/

/-- Bit `b` of storage byte `k` (rule R21). -/
theorem getLsbD_storageByte (v : BitVec P.vw) (k : Nat) {b : Nat} (hb : b < 8) :
    (storageByte v k).getLsbD b = v.getLsbD (8 * k + b) := by
  simp [storageByte, hb]

/-- Settles O38: the full-width string shows bit `i` of the value at position `8*a_w - 1 - i`. -/
theorem storageByteOrder : Obligations.StorageByteOrder := by
  unfold Obligations.StorageByteOrder
  intro s k b ht hlen hk hb
  have hbyte := getLsbD_storageByte s.req.a k hb
  have hint : s.req.len.toInt = 8 * s.req.a_w.toNat := by
    have hw := s.req.a_w.isLt
    exact_mod_cast toInt_eq_of_toNat_eq hlen (by omega)
  have hlength : renderLength s.req = 8 * s.req.a_w.toNat := by
    rw [renderLength_explicit (by omega)]
    omega
  obtain ⟨-, -, hsmax, -⟩ := renderLength_bounds ht hint.le
  refine ⟨hbyte, _, exec_renderbin_of_within ht hint.le, rfl, ?_⟩
  rw [answer_rsp, answerString, portChar_renderString _ hsmax, hlength, if_pos (by omega),
    bitChar_toNat, hbyte]
  congr 3
  omega

end Sys2Proof.Machine
end

section
/-! The wires of a string port (`30_encoding.md` rule R33): reading them and laying them out are inverse
to each other, wire by wire. -/

namespace Sys2Proof.Machine

variable {w n : Nat}

/-- Wire `w * i + x` of a string port is bit `x` of character `i`. -/
theorem getLsbD_stringWires (v : Vector (BitVec w) n) {i x : Nat} (hi : i < n) (hx : x < w) :
    (stringWires v).getLsbD (w * i + x) = v[i].getLsbD x := by
  have hw : 0 < w := by omega
  have hdiv : (w * i + x) / w = i := by
    rw [Nat.mul_add_div hw, Nat.div_eq_of_lt hx, Nat.add_zero]
  have hmod : (w * i + x) % w = x := by rw [Nat.mul_add_mod, Nat.mod_eq_of_lt hx]
  have hlt : w * i + x < n * w := by
    calc w * i + x < w * (i + 1) := by rw [Nat.mul_add_one]; omega
      _ ≤ w * n := Nat.mul_le_mul_left w hi
      _ = n * w := Nat.mul_comm w n
  rw [stringWires, getLsbD_packChars hw _ _ _ hlt]
  simp [hdiv, hmod, hi]

theorem extractLsb'_stringWires (v : Vector (BitVec w) n) {i : Nat} (hi : i < n) :
    (stringWires v).extractLsb' (w * i) w = v[i] := by
  apply BitVec.eq_of_getLsbD_eq
  intro x hx
  rw [BitVec.getLsbD_extractLsb', getLsbD_stringWires v hi hx]
  simp [hx]

theorem stringFromWires_stringWires (v : Vector (BitVec w) n) :
    stringFromWires (stringWires v) = v := by
  ext1 i hi
  rw [stringFromWires, getElem_stringOf _ i hi, extractLsb'_stringWires v hi]

/-- Every wire `y` is bit `y mod w` of character `y / w`. -/
theorem stringWires_stringFromWires (b : BitVec (n * w)) : stringWires (stringFromWires b) = b := by
  apply BitVec.eq_of_getLsbD_eq
  intro y hy
  have hw : 0 < w := Nat.pos_of_mul_pos_left (by omega : 0 < n * w)
  have hi : y / w < n := Nat.div_lt_of_lt_mul (Nat.mul_comm n w ▸ hy)
  have hx : y % w < w := Nat.mod_lt y hw
  have hwire := getLsbD_stringWires (stringFromWires b) hi hx
  rw [Nat.div_add_mod] at hwire
  rw [hwire, stringFromWires, getElem_stringOf _ _ hi, BitVec.getLsbD_extractLsb', Nat.div_add_mod]
  simp [hx]

/-- Settles O37: each wire belongs to one character, at one position of it. -/
theorem stringLayoutOnWires : Obligations.StringLayoutOnWires := by
  unfold Obligations.StringLayoutOnWires
  intro w n
  exact ⟨fun v i hi => extractLsb'_stringWires v hi, stringFromWires_stringWires,
    stringWires_stringFromWires⟩

end Sys2Proof.Machine
end
